-- ==== Sys2Proof/Word.lean ====
section
/-! DEFINITION. The types of the values the machine handles: texts, integers, addresses, the
validator's reasons and the contents of MDR. The source has no bits (spec/00_scope.md section 4),
so nothing here is a bit vector. -/

namespace Sys2Proof

/-- An instruction text, a token or a trace line: a finite sequence of Unicode scalar values
(R11, R60; spec decision D2, log 11). -/
abbrev Text := List Char

/-! What AC and a data slot hold is an integer of INT_RANGE, all of ℤ (R10; spec decision D9,
log 10), and an address given to the memory is any integer, in range or not (R43 to R48): both are
`Int`, under no other name. -/

/-- Why the validator rejects a text (R66, R170). -/
inductive Reason where
  | invalidInteger
  | outOfRange
deriving DecidableEq, Repr

/-- What MDR holds: an integer or a text (R25). -/
inductive MdrValue where
  | num (z : Int)
  | txt (t : Text)
deriving DecidableEq, Repr

end Sys2Proof
end

