-- ==== Sys2Proof/Config.lean ====
section
/-! DEFINITION. The parameters of the hardware (R8 to R12): fixed for its life, not state. Two are
OPEN in the spec and stand here as constants without a body. -/

namespace Sys2Proof

/-- MEM_SIZE, written N: slots per plane (R8; the source's default, spec decision D8, log 9). -/
def Config.memSize : Nat := 256

/-- ADDR_LIMIT: the exclusive bound the decoder gives to `validateAddress` (R9; spec decision D7,
log 9). -/
def Config.addrLimit : Int := Config.memSize

/-- Which of its two allowed values MDR_RESET has: OPEN (R12, R25, U8; DESIGN CHOICE of the form,
log 5). A statement that depends on MDR before the first fetch must hold for both. -/
opaque Config.mdrResetIsText : Bool

/-- MDR_RESET: `Txt ""` or `Num 0` (R12, R25). -/
def Config.mdrReset : MdrValue :=
  if Config.mdrResetIsText then .txt [] else .num 0

/-- REASON_TEXT: how a reason is spelled in a trace line, OPEN (R12, R172, U9; log 6). -/
opaque Config.reasonText : Reason → Text

end Sys2Proof
end

