-- ==== Sys2Proof/Syntax.lean ====
section
/-! DEFINITION. The decoded instructions: one constructor per row of spec/opcode_table.json, the
values of `Decoded` in R77. -/

namespace Sys2Proof

/-- What `decode` answers (R68, R77). The first and the last three error forms are decode outcomes
too: they have rows of the opcode table and effects of their own. -/
inductive Instr where
  /-- EMPTY: a blank text (R61, R96). -/
  | empty
  /-- HLT (R130). -/
  | hlt
  /-- MISSING_OPERAND: one token that is not HLT (R171). -/
  | missingOperand
  /-- INVALID_ADDRESS: an operand the validator rejects (R172). -/
  | invalidAddress (reason : Reason)
  /-- LOAD addr (R110). -/
  | load (addr : Int)
  /-- STORE addr (R111). -/
  | store (addr : Int)
  /-- ADD addr (R120). -/
  | add (addr : Int)
  /-- SUB addr (R121). -/
  | sub (addr : Int)
  /-- UNKNOWN: a valid address after an opcode token that is none of the five (R173). -/
  | unknown (addr : Int)
deriving DecidableEq, Repr

end Sys2Proof
end

