-- ==== Sys2Proof/WellFormed.lean ====
section
/-! DEFINITION. Which decoded instructions a text can stand for: R77 gives every address operand
the range [0, ADDR_LIMIT). -/

namespace Sys2Proof

/-- The address operand of an instruction that has one (format T1 and the unknown form, R64, R77). -/
def Instr.address : Instr → Option Int
  | .empty => none
  | .hlt => none
  | .missingOperand => none
  | .invalidAddress _ => none
  | .load a => some a
  | .store a => some a
  | .add a => some a
  | .sub a => some a
  | .unknown a => some a

/-- An operand the decoder can produce: `0 ≤ a < ADDR_LIMIT` (R65, R77). -/
def addrOk (a : Int) : Bool := decide (0 ≤ a) && decide (a < Config.addrLimit)

/-- The well-formed instructions: those whose operand, if any, is in range (R77). -/
def Instr.wf (i : Instr) : Bool :=
  match i.address with
  | none => true
  | some a => addrOk a

end Sys2Proof
end

