-- ==== Sys2Proof/Decode.lean ====
section
/-! DEFINITION. From text to instruction and back: the lexical functions of spec/30_encoding.md,
the validator, `decode` (total, R68, R72), the decimal rendering `dec` (R32), the encoder, and the
host's reading of a text as a number. -/

namespace Sys2Proof

/-! Lexical functions -/

/-- IS_SPACE: U+0020 and U+0009 to U+000D, the six ASCII whitespace characters (R11, R61; spec
decision D3, log 11). -/
def isSpace (c : Char) : Bool :=
  c.toNat == 0x20 || (decide (0x09 ≤ c.toNat) && decide (c.toNat ≤ 0x0D))

/-- A text that is empty or all whitespace (R61). -/
def blank (t : Text) : Bool := t.all isSpace

/-- Does the text begin with a character of a token? -/
def startsToken : Text → Bool
  | [] => false
  | c :: _ => !isSpace c

/-- Put a character in front of the first token. -/
def extendHead (c : Char) : List Text → List Text
  | [] => [[c]]
  | t :: ts => (c :: t) :: ts

/-- `Tokens(t)`: the maximal runs of non-whitespace characters, in order (R62; spec decision D4,
log 12). -/
def tokens : Text → List Text
  | [] => []
  | c :: cs =>
    if isSpace c then tokens cs
    else if startsToken cs then extendHead c (tokens cs)
    else [c] :: tokens cs

/-- UPPER on one character: ASCII `a`..`z` to `A`..`Z`, everything else unchanged (R11, R63; spec
decision D5, log 11). -/
def upperChar (c : Char) : Char :=
  if 0x61 ≤ c.toNat ∧ c.toNat ≤ 0x7A then Char.ofNat (c.toNat - 0x20) else c

/-- UPPER on a text (R63). -/
def upper (t : Text) : Text := t.map upperChar

/-- The value of one decimal digit `0`..`9` (R67). -/
def digitValue (c : Char) : Option Nat :=
  if 0x30 ≤ c.toNat ∧ c.toNat ≤ 0x39 then some (c.toNat - 0x30) else none

/-- The value of a digit string read after a prefix of value `acc`; none at the first character
that is no digit. -/
def digitsValue (acc : Nat) : Text → Option Nat
  | [] => some acc
  | c :: cs =>
    match digitValue c with
    | some d => digitsValue (10 * acc + d) cs
    | none => none

/-- One or more digits, nothing else. -/
def natParse (t : Text) : Option Nat :=
  match t with
  | [] => none
  | c :: cs => digitsValue 0 (c :: cs)

/-- INT_PARSE, the strict grammar: an optional `-`, then one or more digits, nothing else (R67;
spec decision D6, log 13). -/
def intParse : Text → Option Int
  | [] => none
  | c :: cs =>
    if c = '-' then (natParse cs).map (fun n : Nat => -(n : Int))
    else (natParse (c :: cs)).map (fun n : Nat => (n : Int))

/-! The validator -/

/-- `validateAddress(text, maxMemory)`: first the parse check, then the range check (R66). -/
def validateAddress (text : Text) (maxMemory : Int) : Except Reason Int :=
  match intParse text with
  | none => .error .invalidInteger
  | some v => if v < 0 ∨ maxMemory ≤ v then .error .outOfRange else .ok v

/-- `validateDataValue(text)`: any sign, no range bound (R145). -/
def validateDataValue (text : Text) : Except Reason Int :=
  match intParse text with
  | none => .error .invalidInteger
  | some v => .ok v

/-! Decode -/

/-- The five mnemonics, in upper case (R63). -/
def mnHlt : Text := ['H', 'L', 'T']
def mnLoad : Text := ['L', 'O', 'A', 'D']
def mnStore : Text := ['S', 'T', 'O', 'R', 'E']
def mnAdd : Text := ['A', 'D', 'D']
def mnSub : Text := ['S', 'U', 'B']

/-- The dispatch on a normalised opcode token once the operand is a valid address (R68). -/
def decodeOpcode (op : Text) (a : Int) : Instr :=
  if op = mnLoad then .load a
  else if op = mnStore then .store a
  else if op = mnAdd then .add a
  else if op = mnSub then .sub a
  else .unknown a

/-- The checks of R68 on the token list, in the order of the rule. Tokens after the operand, and
after HLT, are not read (R70, R71; log 14). -/
def decodeTokens : List Text → Instr
  | [] => .empty
  | op :: rest =>
    if upper op = mnHlt then .hlt
    else match rest with
      | [] => .missingOperand
      | operand :: _ =>
        match validateAddress operand Config.addrLimit with
        | .error r => .invalidAddress r
        | .ok a => decodeOpcode (upper op) a

/-- `decode` of R68: total on every text (R72). -/
def decode (t : Text) : Instr :=
  if blank t then .empty else decodeTokens (tokens t)

/-! Decimal rendering -/

/-- `dec(n)`: base 10, no leading zeros, `0` for zero, a leading `-` and no `+` (R32; spec decision
D12, log 8). -/
def dec (z : Int) : Text :=
  if z < 0 then '-' :: Nat.toDigits 10 z.natAbs else Nat.toDigits 10 z.natAbs

/-! The encoder -/

/-- The canonical spelling of a T1 form: the mnemonic, one space, the address in decimal (R75). -/
def spellT1 (op : Text) (a : Int) : Text := op ++ ' ' :: dec a

/-- The canonical text of an instruction (R75). The error forms and the blank form have many texts
and no canonical one; each gets a text R80 lists for it (DESIGN CHOICE, log 23). -/
def encode : Instr → Text
  | .empty => []
  | .hlt => mnHlt
  | .missingOperand => mnLoad
  | .invalidAddress .invalidInteger => ['A', 'D', 'D', ' ', 'x', '1']
  | .invalidAddress .outOfRange => ['A', 'D', 'D', ' ', '-', '1']
  | .load a => spellT1 mnLoad a
  | .store a => spellT1 mnStore a
  | .add a => spellT1 mnAdd a
  | .sub a => spellT1 mnSub a
  | .unknown a => spellT1 ['F', 'O', 'O'] a

/-! A text as a number, for the host (log 1): the source has no bits, so the layout is the model's
own. Character k of the text is byte k of the number, least significant byte first; the zero bytes
above the last nonzero one are no part of the text. -/

/-- At most `k` characters of the number `w`, lowest byte first. -/
def textOfBytes : Nat → Nat → Text
  | 0, _ => []
  | k + 1, w => if w = 0 then [] else Char.ofNat (w % 256) :: textOfBytes k (w / 256)

/-- The text whose bits are `w` (DESIGN CHOICE, log 1). -/
def textOfTableWord (nbits w : Nat) : Text := textOfBytes ((nbits + 7) / 8) w

/-- The instruction the decoder reads from the text whose bits are `w`; never none, because every
text decodes (R72). -/
def decodeTableWord (nbits w : Nat) : Option Instr := some (decode (textOfTableWord nbits w))

end Sys2Proof
end

