-- ==== Sys2Proof/Machine/State.lean ====
section
/-! DEFINITION. The state of the machine as plain data (R20), the kinds of trace line (R94, R95,
R170), the two ways a step could stop (none does), and the reset state (R34). -/

namespace Sys2Proof.Machine

/-- The three errors of a cycle (R170 group a). -/
inductive ErrorKind where
  | missingOperand
  | invalidAddress (reason : Reason)
  | unknownOpcode
deriving DecidableEq, Repr

/-- What a trace line says after its prefix (R94, R95), kept structured (R172, log 7). -/
inductive Message where
  /-- `Program Halted.` -/
  | programHalted
  /-- `Error: …` -/
  | error (kind : ErrorKind)
  /-- `AC=<n>` -/
  | accumulator (n : Int)
  /-- `Memory[<addr>]=<n>` -/
  | memoryWrite (addr : Int) (n : Int)
deriving DecidableEq, Repr

/-- One trace line: the address in its prefix, the raw text in its prefix, the message (R95). The
address is an integer because the rule computes it as `PC − 1`. -/
structure TraceEntry where
  pc : Int
  ir : Text
  msg : Message
deriving DecidableEq, Repr

/-- The memory: two planes over the same addresses (R40). `data` lists the slots that do not hold
0, `instr` the slots whose presence flag is set, each sorted by address (logs 3 and 4). -/
structure Memory where
  data : List (Nat × Int)
  instr : List (Nat × Text)
deriving DecidableEq, Repr

/-- The whole state (R20). IPresent is the membership of an address in `mem.instr` (log 4). -/
structure State where
  /-- AC, the accumulator (R21). -/
  ac : Int
  /-- PC, the address of the next fetch (R22). -/
  pc : Nat
  /-- IR, the raw text last fetched (R26). -/
  ir : Text
  /-- MAR, the address of the last fetch (R24). -/
  mar : Nat
  /-- MDR, the text of the last fetch (R25). -/
  mdr : MdrValue
  /-- The halted flag (R27). -/
  halted : Bool
  /-- DMem, IMem and IPresent (R40 to R42). -/
  mem : Memory
  /-- Trace, oldest line first (R31). -/
  trace : List TraceEntry
deriving DecidableEq, Repr

/-- Why the machine could stop with a fault: nothing. "There are no fatal (aborting) error
conditions inside the engine" (R177), so no constructor exists and nobody raises one (log 16). -/
inductive Fault where
deriving DecidableEq, Repr

/-- Why the model could give an instruction no meaning. -/
inductive Refusal where
  /-- Raised by an arm of `exec` whose instruction has no meaning yet: no arm of this model. Safe. -/
  | notModelled (mnemonic : String)
deriving DecidableEq, Repr

/-- Both planes at their defaults: nothing listed (R41, R42, R47). -/
def Memory.empty : Memory := { data := [], instr := [] }

/-- The state after construction and after reset (R34, R141, R201). MDR holds MDR_RESET (log 5). -/
def State.reset : State :=
  { ac := 0, pc := 0, ir := [], mar := 0, mdr := Config.mdrReset, halted := false,
    mem := Memory.empty, trace := [] }

end Sys2Proof.Machine
end

