-- ==== Sys2Proof/Machine/Ops.lean ====
section
/-! DEFINITION. The named operations over memory and registers: the five memory operations of
spec/20_memory.md, the fetch (R92), the ALU (R122), the trace (R95), and the one shared operation
of the error cycles (R175). There is no trap entry and no trap return (R179, R180). -/

namespace Sys2Proof.Machine

/-! One plane as a sorted list of slots -/

/-- The entry at an address, if listed. -/
def planeFind {α : Type} : List (Nat × α) → Nat → Option α
  | [], _ => none
  | c :: cs, a => if c.1 = a then some c.2 else planeFind cs a

/-- Unlist an address. -/
def planeErase {α : Type} : List (Nat × α) → Nat → List (Nat × α)
  | [], _ => []
  | c :: cs, a => if c.1 = a then planeErase cs a else c :: planeErase cs a

/-- List an address with a new entry, keeping the addresses rising. -/
def planeSet {α : Type} : List (Nat × α) → Nat → α → List (Nat × α)
  | [], a, v => [(a, v)]
  | c :: cs, a, v =>
    if a < c.1 then (a, v) :: c :: cs
    else if c.1 = a then (a, v) :: cs
    else c :: planeSet cs a v

/-- Addresses strictly rising. -/
abbrev planeSorted {α : Type} (p : List (Nat × α)) : Prop := p.Pairwise (fun x y => x.1 < y.1)

/-! The memory -/

/-- What a data slot that is not listed holds (R41: "default 0"). -/
def Memory.unlistedValue : Int := 0

/-- What an instruction slot that is not listed holds (R42: "default empty"). -/
def Memory.unlistedText : Text := []

/-- The canonical form: rising addresses inside the plane, no data slot listed at its default. A
listed instruction slot differs from an unlisted one by its presence flag, so any text may stand
there (R33, R46). -/
abbrev Memory.wf (m : Memory) : Prop :=
  planeSorted m.data ∧
  (∀ c ∈ m.data, c.1 < Config.memSize ∧ c.2 ≠ Memory.unlistedValue) ∧
  planeSorted m.instr ∧
  (∀ c ∈ m.instr, c.1 < Config.memSize)

/-- `a ∈ [0, N)` (R48). -/
def inRange (a : Int) : Bool := decide (0 ≤ a) && decide (a.toNat < Config.memSize)

/-- `getValue(address)`: the data slot, or 0 out of range (R43). -/
def Memory.getValue (m : Memory) (a : Int) : Int :=
  if inRange a then (planeFind m.data a.toNat).getD Memory.unlistedValue else 0

/-- `IPresent[a]`: an instruction was stored at the address (R42, R46). -/
def Memory.present (m : Memory) (a : Int) : Bool :=
  inRange a && (planeFind m.instr a.toNat).isSome

/-- `getInstruction(address)`: the instruction slot, or the empty text out of range or where
absent (R44). -/
def Memory.getInstruction (m : Memory) (a : Int) : Text :=
  if inRange a then (planeFind m.instr a.toNat).getD Memory.unlistedText else []

/-- `setData(address, value)`: dropped out of range (R45). -/
def Memory.setData (m : Memory) (a : Int) (v : Int) : Memory :=
  if inRange a then
    { m with data :=
        if v = Memory.unlistedValue then planeErase m.data a.toNat
        else planeSet m.data a.toNat v }
  else m

/-- `setInstruction(address, text)`: dropped out of range, otherwise stored as given and marked
present (R46). -/
def Memory.setInstruction (m : Memory) (a : Int) (t : Text) : Memory :=
  if inRange a then { m with instr := planeSet m.instr a.toNat t } else m

/-- `clear()`: both planes and the presence flags at their defaults (R47). -/
def Memory.clear (_m : Memory) : Memory := Memory.empty

/-! Registers and trace -/

/-- `fetch`: MAR, MDR, IR and PC, nothing else (R92). -/
def fetch (s : State) : State :=
  let t := s.mem.getInstruction (s.pc : Int)
  { s with mar := s.pc, mdr := .txt t, ir := t, pc := s.pc + 1 }

/-- Write the accumulator (R21). -/
def State.setAc (v : Int) (s : State) : State := { s with ac := v }

/-- `MemWrite(a, 1, v)` (R45). -/
def State.setData (a : Int) (v : Int) (s : State) : State := { s with mem := s.mem.setData a v }

/-- `log(msg)`: append one line, prefixed with `PC − 1` and the raw IR (R95). -/
def State.log (m : Message) (s : State) : State :=
  { s with trace := s.trace ++ [{ pc := (s.pc : Int) - 1, ir := s.ir, msg := m }] }

/-- `raise Kind(info)`: the whole of what an error does. One line, nothing else (R175,
spec/00_scope.md section 4). -/
def State.raise (k : ErrorKind) (s : State) : State := s.log (.error k)

/-- The adder: exact integer addition (R120, R122). -/
def aluAdd (x y : Int) : Int := x + y

/-- The subtracter: exact, the accumulator is the minuend (R121, R122). -/
def aluSub (x y : Int) : Int := x - y

end Sys2Proof.Machine
end

