-- ==== Sys2Proof/Machine/Operands.lean ====
section
/-! DEFINITION. The one operand form: a direct absolute slot address (R65, R112). -/

namespace Sys2Proof.Machine

/-- The effective address is the operand itself (R112). -/
def effectiveAddress (a : Int) : Int := a

/-- `MemRead(addr, 1)`: the operand of LOAD, ADD and SUB, a whole data slot; MAR and MDR take no
part (R112). -/
def readOperand (a : Int) (s : State) : Int := s.mem.getValue (effectiveAddress a)

/-- `MemWrite(addr, 1, v)`: the destination of STORE (R112). -/
def writeOperand (a : Int) (v : Int) (s : State) : State := s.setData (effectiveAddress a) v

end Sys2Proof.Machine
end

