-- ==== Sys2Proof/Machine/Arithmetic.lean ====
section
/-! DEFINITION. ADD and SUB (spec/42_arithmetic.md): exact integer arithmetic, no flags. -/

namespace Sys2Proof.Machine

/-- Write a result to AC and log it: the common end of ADD and SUB (R94). -/
def accumulate (v : Int) (s : State) : State := (s.setAc v).log (.accumulator v)

/-- ADD: AC takes AC plus the data slot (R120). -/
def execAdd (a : Int) (s : State) : Host.Outcome State Fault Refusal :=
  .next (accumulate (aluAdd s.ac (readOperand a s)) s)

/-- SUB: AC takes AC minus the data slot (R121). -/
def execSub (a : Int) (s : State) : Host.Outcome State Fault Refusal :=
  .next (accumulate (aluSub s.ac (readOperand a s)) s)

end Sys2Proof.Machine
end

