-- ==== Sys2Proof/Machine/Flags.lean ====
section
/-! DEFINITION. The only status bit is `halted`: there are no condition codes (R28), so ADD and SUB
compute no flag (R123). -/

namespace Sys2Proof.Machine

/-- HLT sets the flag (R27, R130). -/
def State.setHalted (s : State) : State := { s with halted := true }

/-- The state Halted: the flag is set, or PC left the memory (R27). -/
def State.isHalted (s : State) : Bool := s.halted || decide (Config.memSize ≤ s.pc)

/-- The state Running (R27). -/
def State.isRunning (s : State) : Bool := !s.isHalted

end Sys2Proof.Machine
end

