-- ==== Sys2Proof/Machine/Control.lean ====
section
/-! DEFINITION. HLT (spec/43_halt_and_control.md) and the blank form (R96). No instruction writes
PC (R132). -/

namespace Sys2Proof.Machine

/-- HLT: set the flag, log `Program Halted.` (R130). -/
def execHlt (s : State) : Host.Outcome State Fault Refusal :=
  .next (s.setHalted.log .programHalted)

/-- A blank text: nothing beyond the fetch, no line (R93, R96). -/
def execEmpty (s : State) : Host.Outcome State Fault Refusal := .next s

end Sys2Proof.Machine
end

