-- ==== Sys2Proof/Machine/Errors.lean ====
section
/-! DEFINITION. The three error cycles (spec/60_exceptions.md): ordinary next states, each one line
through `State.raise` (R175, R189). -/

namespace Sys2Proof.Machine

/-- MissingOperand (R171). -/
def execMissingOperand (s : State) : Host.Outcome State Fault Refusal :=
  .next (s.raise .missingOperand)

/-- InvalidAddress with the validator's reason (R172). -/
def execInvalidAddress (r : Reason) (s : State) : Host.Outcome State Fault Refusal :=
  .next (s.raise (.invalidAddress r))

/-- UnknownOpcode: the operand is valid, its slot is read and the value discarded, so the read is
left out (R99, R173, log 21). -/
def execUnknown (_a : Int) (s : State) : Host.Outcome State Fault Refusal :=
  .next (s.raise .unknownOpcode)

end Sys2Proof.Machine
end

