-- ==== Sys2Proof/Machine/Transfer.lean ====
section
/-! DEFINITION. LOAD and STORE (spec/41_load_store.md). A meaning is what `decodeExecute` does once
the text is decoded; the fetch came before it (R94). -/

namespace Sys2Proof.Machine

/-- LOAD: AC takes the data slot, then the line with the new AC (R110). -/
def execLoad (a : Int) (s : State) : Host.Outcome State Fault Refusal :=
  let m := readOperand a s
  .next ((s.setAc m).log (.accumulator m))

/-- STORE: the data slot takes AC, then the line with the operand and AC (R111). The operand read
that R99 discards is left out (log 21). -/
def execStore (a : Int) (s : State) : Host.Outcome State Fault Refusal :=
  .next ((writeOperand a s.ac s).log (.memoryWrite a s.ac))

end Sys2Proof.Machine
end

