-- ==== Sys2Proof/Machine/Dispatch.lean ====
section
/-! DEFINITION. One arm per constructor of Instr (R94): which meaning runs. -/

namespace Sys2Proof.Machine

def exec (i : Instr) (s : State) : Host.Outcome State Fault Refusal :=
  match i with
  | .empty => Sys2Proof.Machine.execEmpty s
  | .hlt => Sys2Proof.Machine.execHlt s
  | .missingOperand => Sys2Proof.Machine.execMissingOperand s
  | .invalidAddress r => Sys2Proof.Machine.execInvalidAddress r s
  | .load a => Sys2Proof.Machine.execLoad a s
  | .store a => Sys2Proof.Machine.execStore a s
  | .add a => Sys2Proof.Machine.execAdd a s
  | .sub a => Sys2Proof.Machine.execSub a s
  | .unknown a => Sys2Proof.Machine.execUnknown a s

end Sys2Proof.Machine
end

