-- ==== Sys2Proof/Machine/Cycle.lean ====
section
/-! DEFINITION. The execution cycle (spec/40_cycle.md): the gate, the fetch, `decodeExecute`. -/

namespace Sys2Proof.Machine

/-- `decodeExecute`: nothing if already halted, else the meaning of the text in IR (R93, R94). -/
def decodeExecute (s : State) : Host.Outcome State Fault Refusal :=
  if s.halted then .next s else exec (decode s.ir) s

/-- One `runCycle` as a transition: closed gate, nothing changes; open gate, fetch and then
`decodeExecute` (R90, R91; log 15). -/
def cycle (s : State) : Host.Outcome State Fault Refusal :=
  if s.isHalted then .next s else decodeExecute (fetch s)

/-- The state whose gate is open and whose next fetch reads `t`. In a Running state only the slot at
PC changes; in a Halted one the flag is cleared and PC returns to the entry point 0 if it had left
the memory (log 2). -/
def placeNext (t : Text) (s : State) : State :=
  let pc := if Config.memSize ≤ s.pc then 0 else s.pc
  { s with halted := false, pc := pc, mem := s.mem.setInstruction (pc : Int) t }

end Sys2Proof.Machine
end

