-- ==== Sys2Proof/Machine/Step.lean ====
section
/-! DEFINITION. The step of the machine is one `runCycle` (R90), and the host's way of placing the
next instruction. -/

namespace Sys2Proof.Machine

/-- One step: one `runCycle` (R90, R91). -/
def step (s : State) : Host.Outcome State Fault Refusal := cycle s

/-- The state whose next step fetches and runs the text whose bits are `w` (logs 1 and 2). -/
def State.withFetchWord (s : State) (nbits w : Nat) : State :=
  placeNext (textOfTableWord nbits w) s

end Sys2Proof.Machine
end

