-- ==== Sys2Proof/Machine/Render.lean ====
section
/-! DEFINITION. The exact text of a trace line (R95): the state keeps lines structured and they are
rendered here (R172, log 7). Rendering of numbers and the separator are the spec's decision D12
(log 8); the spelling of a reason is open (log 6). -/

namespace Sys2Proof.Machine

/-- `Error: …` of each cycle error (R171 to R173). -/
def ErrorKind.text : ErrorKind → Text
  | .missingOperand => "Error: Missing operand".toList
  | .invalidAddress r => "Error: Invalid address: ".toList ++ Config.reasonText r
  | .unknownOpcode => "Error: Unknown instruction".toList

/-- The message part of a line (R94, R95). -/
def Message.text : Message → Text
  | .programHalted => "Program Halted.".toList
  | .error k => k.text
  | .accumulator n => "AC=".toList ++ dec n
  | .memoryWrite a n => "Memory[".toList ++ dec a ++ "]=".toList ++ dec n

/-- The whole line: `PC=<PC-1> IR=<IR> <message>` (R95). -/
def TraceEntry.text (e : TraceEntry) : Text :=
  "PC=".toList ++ dec e.pc ++ " IR=".toList ++ e.ir ++ " ".toList ++ e.msg.text

/-- The trace output: the list of lines, oldest first (R151). -/
def State.traceLines (s : State) : List Text := s.trace.map TraceEntry.text

/-- Is the entry a line whose message begins `Error:` (R189)? -/
def TraceEntry.isError (e : TraceEntry) : Bool :=
  match e.msg with
  | .error _ => true
  | .programHalted => false
  | .accumulator _ => false
  | .memoryWrite _ _ => false

end Sys2Proof.Machine
end

