-- ==== Sys2Proof/Machine/HostInterface.lean ====
section
/-! DEFINITION. What the host can do to the core between cycles and what it gets back
(spec/48_host_interface.md, spec/70_reset_and_hazards.md): construction, reset, loadProgram,
runCycle, runProgram, snapshots, trace, and the assembly-time checks. -/

namespace Sys2Proof.Machine

/-! Construction and reset -/

/-- Construction gives the reset state (R141, R201). -/
def construct : State := State.reset

/-- `reset()`: every register, the flag, both planes and the trace (R200). -/
def resetMachine (s : State) : State :=
  { ac := 0, pc := 0, ir := [], mar := 0, mdr := Config.mdrReset, halted := false,
    mem := s.mem.clear, trace := [] }

/-! Loading -/

/-- Apply the instruction pairs in order (R142). -/
def loadInstructions (ps : List (Int × Text)) (m : Memory) : Memory :=
  ps.foldl (fun m p => m.setInstruction p.1 p.2) m

/-- Apply the data pairs in order (R142). -/
def loadData (ps : List (Int × Int)) (m : Memory) : Memory :=
  ps.foldl (fun m p => m.setData p.1 p.2) m

/-- The program: two lists of pairs in insertion order (R143; spec decision D18, log 19). -/
structure Program where
  instructions : List (Int × Text)
  dataValues : List (Int × Int)
deriving DecidableEq, Repr

/-- `loadProgram`: all instruction pairs, then all data pairs; nothing is validated and no register
changes (R142). -/
def loadProgram (p : Program) (s : State) : State :=
  { s with mem := loadData p.dataValues (loadInstructions p.instructions s.mem) }

/-! Running -/

/-- The state after a step; `step` always answers next (R177), so the other arms never run. -/
def advance (s : State) : State :=
  match step s with
  | .next t => t
  | .fault _ => s
  | .refused _ => s

/-- `runCycle()`: the state after it and the answer "may cycle again": false if the gate was closed,
else the negated flag after the cycle (R91, R97). -/
def runCycle (s : State) : State × Bool :=
  if s.isHalted then (s, false) else (advance s, !(advance s).halted)

/-- `while runCycle(): (nothing)`, with at most `k` calls (R148). -/
def runLoop : Nat → State → State
  | 0, s => s
  | k + 1, s => if (runCycle s).2 then runLoop k (runCycle s).1 else (runCycle s).1

/-- How many calls end the loop: at most `N − PC` executed cycles and one call that does nothing
(R149; log 25). -/
def runBound (s : State) : Nat := Config.memSize - s.pc + 1

/-- `runProgram()`: the loop to its end, and the trace it returns (R148). -/
def runProgram (s : State) : State × List Text :=
  (runLoop (runBound s) s, (runLoop (runBound s) s).traceLines)

/-- How many cycles the loop executes within `k` calls: a call on a Halted machine executes none
(R148, R149). -/
def cyclesIn : Nat → State → Nat
  | 0, _ => 0
  | k + 1, s => if s.isHalted then 0 else 1 + cyclesIn k (advance s)

/-! Reading back -/

/-- What a snapshot can name (R150; `halted` and instruction texts by spec decisions D23 and D25,
log 20). -/
inductive SnapshotKey where
  | ac
  | pc
  | ir
  | mar
  | mdr
  | halted
  | data (a : Int)
  | instruction (a : Int)
deriving DecidableEq, Repr

/-- What a snapshot answers. -/
inductive SnapshotValue where
  | int (z : Int)
  | text (t : Text)
  | mdr (v : MdrValue)
  | bit (b : Bool)
deriving DecidableEq, Repr

/-- The read-only accessors (R150). -/
def snapshot (k : SnapshotKey) (s : State) : SnapshotValue :=
  match k with
  | .ac => .int s.ac
  | .pc => .int s.pc
  | .ir => .text s.ir
  | .mar => .int s.mar
  | .mdr => .mdr s.mdr
  | .halted => .bit s.halted
  | .data a => .int (s.mem.getValue a)
  | .instruction a => .text (s.mem.getInstruction a)

/-! The operations as one type: what the host may do between cycles (R140, R154) -/

/-- What the host may invoke. `construct` between two cycles is the model's choice (log 28). -/
inductive HostOp where
  | construct
  | reset
  | loadProgram (p : Program)
  | runCycle
  | runProgram
  | snapshot (k : SnapshotKey)
  | readTrace
deriving DecidableEq, Repr

/-- What an operation gives back (R140). -/
inductive HostReply where
  | nothing
  | mayCycleAgain (b : Bool)
  | lines (ls : List Text)
  | value (v : SnapshotValue)
deriving DecidableEq, Repr

/-- The effect and the answer of each operation (R140, R154). DESIGN CHOICE (log 28): the spec does
not say what construction does to a core already in use (R140 and R154 allow it between cycles, R186
lets cores stand side by side, R133 lets only `reset()` leave Halted). Here it hands the host a new core
in the reset state and the old core is followed no further. -/
def hostStep (op : HostOp) (s : State) : State × HostReply :=
  match op with
  | .construct => (Sys2Proof.Machine.construct, .nothing)
  | .reset => (resetMachine s, .nothing)
  | .loadProgram p => (Sys2Proof.Machine.loadProgram p s, .nothing)
  | .runCycle => ((Sys2Proof.Machine.runCycle s).1, .mayCycleAgain (Sys2Proof.Machine.runCycle s).2)
  | .runProgram => ((Sys2Proof.Machine.runProgram s).1, .lines (Sys2Proof.Machine.runProgram s).2)
  | .snapshot k => (s, .value (Sys2Proof.Machine.snapshot k s))
  | .readTrace => (s, .lines s.traceLines)

/-! Assembly-time checks -/

/-- The assembly-time error (R170 group c, R174). -/
inductive AssemblyError where
  | duplicateInstructionAddress (addresses : List Int)
deriving DecidableEq, Repr

/-- The addresses whose non-blank instruction was assigned before, in order, once per extra
occurrence (R146; spec decision D19, log 19). -/
def duplicatesFrom (seen : List Int) : List (Int × Text) → List Int
  | [] => []
  | p :: ps =>
    if blank p.2 then duplicatesFrom seen ps
    else if seen.contains p.1 then p.1 :: duplicatesFrom seen ps
    else duplicatesFrom (p.1 :: seen) ps

/-- `checkDuplicateInstructions` (R146). -/
def checkDuplicateInstructions (ps : List (Int × Text)) : Except AssemblyError Unit :=
  match duplicatesFrom [] ps with
  | [] => .ok ()
  | ds => .error (.duplicateInstructionAddress ds)

/-- No missing or invalid operand: what validation asks of one instruction text (R147; log 26). -/
def textValid (t : Text) : Bool :=
  match decode t with
  | .empty => true
  | .hlt => true
  | .missingOperand => false
  | .invalidAddress _ => false
  | .load _ => true
  | .store _ => true
  | .add _ => true
  | .sub _ => true
  | .unknown _ => true

/-- A valid program (R147). -/
def Program.valid (p : Program) : Bool :=
  p.instructions.all (fun q => inRange q.1 && textValid q.2) &&
  p.dataValues.all (fun q => inRange q.1) &&
  decide (checkDuplicateInstructions p.instructions = .ok ())

end Sys2Proof.Machine
end

