-- ==== Sys2Proof/Safety.lean ====
section
/-! DEFINITION. The terms claims use: the invariant of R35, the states the host can reach, and a
run without errors (R189). -/

namespace Sys2Proof

/-! Shapes of text, in the words of R62 and of the patterns of spec/opcode_table.json (R79) -/

/-- One token: not empty, no whitespace in it (R62). -/
def isToken (t : Text) : Prop := t ≠ [] ∧ ∀ c ∈ t, isSpace c = false

/-- The text that R62 cuts into the pieces: whitespace, then each token with the whitespace behind
it. -/
def spread (lead : Text) (pieces : List (Text × Text)) : Text :=
  lead ++ (pieces.map (fun p => p.1 ++ p.2)).flatten

/-- What makes every token of `spread` a maximal run: tokens are tokens, gaps are whitespace, and
only the gap behind the last token may be empty. -/
def properPieces (lead : Text) (pieces : List (Text × Text)) : Prop :=
  blank lead = true ∧ (∀ p ∈ pieces, isToken p.1 ∧ blank p.2 = true) ∧
  ∀ p ∈ pieces.dropLast, p.2 ≠ []

/-- `<ws>* op ( <ws>+ <tok> )* <ws>*` (R79): what follows the opcode is nothing or starts with
whitespace. -/
def opcodeShape (t op : Text) : Prop :=
  ∃ w rest, t = w ++ op ++ rest ∧ blank w = true ∧ startsToken rest = false

/-- `<ws>* op <ws>*` (R79). -/
def oneTokenShape (t op : Text) : Prop :=
  ∃ w w', t = w ++ op ++ w' ∧ blank w = true ∧ blank w' = true

/-- `<ws>* op <ws>+ operand ( <ws>+ <tok> )* <ws>*` (R79). -/
def operandShape (t op operand : Text) : Prop :=
  ∃ w w' rest, t = w ++ op ++ w' ++ operand ++ rest ∧ blank w = true ∧ blank w' = true ∧
    w' ≠ [] ∧ startsToken rest = false

end Sys2Proof

namespace Sys2Proof.Machine

/-- The instruction in the slot the next fetch reads (R92, R94). -/
def State.nextInstr (s : State) : Instr := decode (s.mem.getInstruction (s.pc : Int))

/-- The error a decoded form raises in its cycle, if it is one of the three error forms (R170). -/
def errorOf : Instr → Option ErrorKind
  | .empty => none
  | .hlt => none
  | .missingOperand => some .missingOperand
  | .invalidAddress r => some (.invalidAddress r)
  | .load _ => none
  | .store _ => none
  | .add _ => none
  | .sub _ => none
  | .unknown _ => some .unknownOpcode

/-- What a cycle changes besides the registers the fetch writes, by the decoded form (R100): which of
AC, the data slots, the flag and the trace stay, and how the trace grows. -/
def changesBeyondFetch (i : Instr) (s t : State) : Prop :=
  match i with
  | .load _ | .add _ | .sub _ =>
    (∀ b, t.mem.getValue b = s.mem.getValue b) ∧ t.halted = s.halted ∧
      ∃ e, t.trace = s.trace ++ [e]
  | .store a =>
    t.ac = s.ac ∧ (∀ b, b ≠ effectiveAddress a → t.mem.getValue b = s.mem.getValue b) ∧
      t.halted = s.halted ∧ ∃ e, t.trace = s.trace ++ [e]
  | .hlt =>
    t.ac = s.ac ∧ (∀ b, t.mem.getValue b = s.mem.getValue b) ∧ t.halted = true ∧
      ∃ e, t.trace = s.trace ++ [e]
  | .missingOperand | .invalidAddress _ | .unknown _ =>
    t.ac = s.ac ∧ (∀ b, t.mem.getValue b = s.mem.getValue b) ∧ t.halted = s.halted ∧
      ∃ e, t.trace = s.trace ++ [e]
  | .empty =>
    t.ac = s.ac ∧ (∀ b, t.mem.getValue b = s.mem.getValue b) ∧ t.halted = s.halted ∧
      t.trace = s.trace

/-- The value of the last pair for an address (R143: a later pair overwrites). -/
def lastPair {α : Type} (ps : List (Int × α)) (a : Int) : Option α :=
  (ps.reverse.find? (fun p => decide (p.1 = a))).map Prod.snd

/-- The addresses of the pairs whose text is not blank, in order (R146). -/
def assignedAddresses (ps : List (Int × Text)) : List Int :=
  (ps.filter (fun p => !blank p.2)).map Prod.fst

/-- The addresses that stand at some earlier position of the list too, one for each such position, in
the list's order (R146). -/
def repeatedAddresses (as : List Int) : List Int :=
  (as.zipIdx.filter (fun p => (as.take p.2).contains p.1)).map Prod.fst

/-- The line a cycle appends for a message: the prefix has the address fetched from and the raw
text (R95). -/
def State.entry (s : State) (m : Message) : TraceEntry :=
  { pc := (s.pc : Int), ir := s.mem.getInstruction (s.pc : Int), msg := m }

/-- The invariants of R35 on MAR, MDR, IR, PC, the flag and the trace, for a state reached by any
operations of the host, and beside them two of the model's own: the memory has its canonical form
(log 3, DEDUCED; no rule of the spec), and the cycles executed since the last reset are counted by PC,
so that "no fetch since reset" is `PC = 0` and the trace has at most PC lines (log 27, DEDUCED). -/
structure State.Inv (s : State) : Prop where
  pcRange : s.pc ≤ Config.memSize
  marRange : s.mar < Config.memSize
  memCanonical : s.mem.wf
  lastFetch : s.pc ≠ 0 → s.mar + 1 = s.pc ∧ s.mdr = .txt s.ir
  noFetch : s.pc = 0 →
    s.mar = 0 ∧ s.ir = [] ∧ s.mdr = Config.mdrReset ∧ s.ac = 0 ∧ s.halted = false ∧ s.trace = []
  haltedByHlt : s.halted = true → decode s.ir = .hlt
  traceLength : s.trace.length ≤ s.pc

/-- Cycles executed since the last reset, after one more operation of the host: reset starts the count
again (R35), and so does construction, which gives the host a new core (log 28). -/
def cyclesAfter (op : HostOp) (n : Nat) (s : State) : Nat :=
  match op with
  | .construct => 0
  | .reset => 0
  | .loadProgram _ => n
  | .runCycle => n + cyclesIn 1 s
  | .runProgram => n + cyclesIn (runBound s) s
  | .snapshot _ => n
  | .readTrace => n

/-- `Reachable n s`: some sequence of host operations from construction ends in `s`, with `n` cycles
executed since the last reset (R35, R154). -/
inductive Reachable : Nat → State → Prop where
  | constructed : Reachable 0 construct
  | hostOp (op : HostOp) {n : Nat} {s : State} (h : Reachable n s) :
      Reachable (cyclesAfter op n s) (hostStep op s).1

/-- A run without errors: no line of the trace is an error line (R189). -/
def State.errorFree (s : State) : Bool := s.trace.all (fun e => !e.isError)

/-- An entry that says MissingOperand or InvalidAddress. -/
def TraceEntry.isOperandError (e : TraceEntry) : Bool :=
  match e.msg with
  | .error .missingOperand => true
  | .error (.invalidAddress _) => true
  | .error .unknownOpcode => false
  | .programHalted => false
  | .accumulator _ => false
  | .memoryWrite _ _ => false

/-- Every instruction text passes the operand validation of R147 as the model reads it (log 26), and
no line logged so far says MissingOperand or InvalidAddress. -/
structure State.OperandsValid (s : State) : Prop where
  texts : ∀ a : Int, textValid (s.mem.getInstruction a) = true
  noOperandError : ∀ e ∈ s.trace, e.isOperandError = false

/-- Everything that decides what a machine will fetch and when it stops: two states with equal
control go through the same sequence of instructions (R123, R132). -/
structure State.SameControl (s t : State) : Prop where
  pc : s.pc = t.pc
  ir : s.ir = t.ir
  mar : s.mar = t.mar
  mdr : s.mdr = t.mdr
  halted : s.halted = t.halted
  instr : s.mem.instr = t.mem.instr

end Sys2Proof.Machine
end

