-- ==== Sys2Proof/Certificates/Slice0/Obligations.lean ====
section
/-! DEFINITION. The statements for the provers. Each formalises rules of spec/, named in its
docstring; nothing here is proved. -/

open Sys2Proof Sys2Proof.Machine

/-! Reset (spec/10_state.md, spec/70_reset_and_hazards.md) -/

/-- R34: the state after construction and after every `reset()`. MDR_RESET is open between its two
allowed values (log 5), so the statement holds for both. -/
def Obligations.ResetStateValues : Prop :=
  1 ≤ Config.memSize ∧
  (Config.mdrReset = .num 0 ∨ Config.mdrReset = .txt []) ∧
  core.reset = construct ∧
  ∀ s t : State, t = construct ∨ t = resetMachine s →
    t.ac = 0 ∧ t.pc = 0 ∧ t.ir = [] ∧ t.mar = 0 ∧ t.mdr = Config.mdrReset ∧ t.halted = false ∧
    (∀ a : Int, 0 ≤ a → a < Config.memSize →
      t.mem.getValue a = 0 ∧ t.mem.getInstruction a = [] ∧ t.mem.present a = false) ∧
    t.trace = [] ∧ t.isRunning = true

/-- R202: `reset(); reset()` equals `reset()`. -/
def Obligations.ResetTwiceIsResetOnce : Prop :=
  ∀ s : State, resetMachine (resetMachine s) = resetMachine s

/-- R200: what `reset()` does, and that no other operation of the host on a constructed core clears
`halted`, empties the trace, removes an instruction, or writes AC or PC other than by a cycle.
Construction is no operation on that core: it makes a new one (log 28). -/
def Obligations.OnlyResetUndoes : Prop :=
  (∀ s : State,
    resetMachine s =
      { ac := 0, pc := 0, ir := [], mar := 0, mdr := Config.mdrReset, halted := false,
        mem := s.mem.clear, trace := [] } ∧
    resetMachine s = construct ∧ hostStep .reset s = (resetMachine s, .nothing)) ∧
  ∀ (op : HostOp) (s : State), op ≠ .reset → op ≠ .construct →
    (s.halted = true → (hostStep op s).1.halted = true) ∧
    (∃ more, (hostStep op s).1.trace = s.trace ++ more) ∧
    (∀ a : Int, s.mem.present a = true → (hostStep op s).1.mem.present a = true) ∧
    (op ≠ .runCycle → op ≠ .runProgram →
      (hostStep op s).1.ac = s.ac ∧ (hostStep op s).1.pc = s.pc)

/-! Memory (spec/20_memory.md) -/

/-- R45: `setData` writes one data slot in range, nothing out of range, and nothing else ever. -/
def Obligations.DataPlaneWrite : Prop :=
  ∀ (m : Memory) (a v : Int),
    (0 ≤ a ∧ a < Config.memSize → (m.setData a v).getValue a = v) ∧
    (¬(0 ≤ a ∧ a < Config.memSize) → m.setData a v = m) ∧
    (∀ b : Int, b ≠ a → (m.setData a v).getValue b = m.getValue b) ∧
    (∀ b : Int, (m.setData a v).getInstruction b = m.getInstruction b ∧
      (m.setData a v).present b = m.present b)

/-- R46: `setInstruction` stores the text as given and marks it present in range, and does nothing
out of range; no other slot, and no data slot, changes. -/
def Obligations.InstructionPlaneWrite : Prop :=
  ∀ (m : Memory) (a : Int) (t : Text),
    (0 ≤ a ∧ a < Config.memSize →
      (m.setInstruction a t).getInstruction a = t ∧ (m.setInstruction a t).present a = true) ∧
    (¬(0 ≤ a ∧ a < Config.memSize) → m.setInstruction a t = m) ∧
    (∀ b : Int, b ≠ a → (m.setInstruction a t).getInstruction b = m.getInstruction b ∧
      (m.setInstruction a t).present b = m.present b) ∧
    (∀ b : Int, (m.setInstruction a t).getValue b = m.getValue b)

/-- R48: the permissive boundary policy, for every address outside `[0, N)`, negative ones
included. -/
def Obligations.MemoryBoundaryPolicy : Prop :=
  ∀ (m : Memory) (a v : Int) (t : Text), a < 0 ∨ (Config.memSize : Int) ≤ a →
    m.getValue a = 0 ∧ m.getInstruction a = [] ∧ m.setData a v = m ∧ m.setInstruction a t = m

/-- R47: `clear()` puts every slot of both planes and every presence flag at its default, and
`reset()` invokes it. -/
def Obligations.ClearRestoresDefaults : Prop :=
  (∀ (m : Memory) (a : Int), 0 ≤ a → a < Config.memSize →
    m.clear.getValue a = 0 ∧ m.clear.getInstruction a = [] ∧ m.clear.present a = false) ∧
  ∀ s : State, (resetMachine s).mem = s.mem.clear

/-! Texts, numerals, decode (spec/30_encoding.md) -/

/-- R66 and R145: the two validator functions, the parse check before the range check, and the
bound the decoder gives. That this bound is N, and that N is 256, are the spec's own decisions D7 and D8
(R8, R9; log 9, unsafe for the number 256) and no part of R66 or R145. -/
def Obligations.ValidatorsCheckParseThenRange : Prop :=
  Config.addrLimit = Config.memSize ∧ Config.memSize = 256 ∧
  (∀ r : Reason, r = .invalidInteger ∨ r = .outOfRange) ∧
  ∀ (text : Text) (maxMemory : Int),
    (intParse text = none →
      validateAddress text maxMemory = .error .invalidInteger ∧
      validateDataValue text = .error .invalidInteger) ∧
    ∀ v : Int, intParse text = some v →
      validateDataValue text = .ok v ∧
      (v < 0 ∨ maxMemory ≤ v → validateAddress text maxMemory = .error .outOfRange) ∧
      (0 ≤ v ∧ v < maxMemory → validateAddress text maxMemory = .ok v)

/-- R62 read as the spec's own choice D4 (log 12): a text cut into proper pieces has exactly those
tokens, and every text can be cut so. -/
def Obligations.TokensAreTheMaximalRuns : Prop :=
  (∀ (lead : Text) (pieces : List (Text × Text)), properPieces lead pieces →
    tokens (spread lead pieces) = pieces.map Prod.fst) ∧
  ∀ t : Text, ∃ lead pieces, properPieces lead pieces ∧ spread lead pieces = t

/-- R67 read as the spec's own choice D6 (log 13): the strict grammar, an optional `-` and one or
more digits, with the value of the digit string in base ten. -/
def Obligations.IntParseIsTheStrictGrammar : Prop :=
  ∀ (t : Text) (v : Int), intParse t = some v ↔
    ∃ ds : Text, ds ≠ [] ∧ (∀ c ∈ ds, '0'.toNat ≤ c.toNat ∧ c.toNat ≤ '9'.toNat) ∧
      ((t = ds ∧ v = ds.foldl (fun n c => 10 * n + ((c.toNat : Int) - '0'.toNat)) 0) ∨
       (t = '-' :: ds ∧ v = -ds.foldl (fun n c => 10 * n + ((c.toNat : Int) - '0'.toNat)) 0))

/-- R32, the spec's own choice D12 (log 8): `dec` writes `0` for zero, no leading zero otherwise, a
leading `-` for a negative number and no sign for a positive one, and what it writes is the numeral of
the number: parsed in base ten (R67, obligation IntParseIsTheStrictGrammar) it gives the number back. -/
def Obligations.DecIsCanonical : Prop :=
  dec 0 = "0".toList ∧
  (∀ z : Int, 0 < z → ∃ (d : Char) (ds : Text), dec z = d :: ds ∧
    '1'.toNat ≤ d.toNat ∧ ∀ c ∈ d :: ds, '0'.toNat ≤ c.toNat ∧ c.toNat ≤ '9'.toNat) ∧
  (∀ z : Int, z < 0 → dec z = '-' :: dec (-z)) ∧
  ∀ z : Int, intParse (dec z) = some z

/-- R68: the checks of `decode`, in their order. -/
def Obligations.DecodeChecksInOrder : Prop :=
  ∀ t : Text,
    (blank t = true → decode t = .empty) ∧
    (blank t = false → ∃ op rest, tokens t = op :: rest ∧
      (upper op = "HLT".toList → decode t = .hlt) ∧
      (upper op ≠ "HLT".toList →
        (rest = [] → decode t = .missingOperand) ∧
        ∀ operand more, rest = operand :: more →
          (∀ r, validateAddress operand Config.addrLimit = .error r →
            decode t = .invalidAddress r) ∧
          ∀ a, validateAddress operand Config.addrLimit = .ok a →
            (upper op = "LOAD".toList → decode t = .load a) ∧
            (upper op = "STORE".toList → decode t = .store a) ∧
            (upper op = "ADD".toList → decode t = .add a) ∧
            (upper op = "SUB".toList → decode t = .sub a) ∧
            (upper op ∉ ["LOAD".toList, "STORE".toList, "ADD".toList, "SUB".toList] →
              decode t = .unknown a)))

/-- R77: every text decodes to a value whose operand is in `[0, ADDR_LIMIT)`, and every such value
is the decoding of some text. -/
def Obligations.DecodedValuesAreTheWellFormedOnes : Prop :=
  (∀ (t : Text) (a : Int), (decode t).address = some a → 0 ≤ a ∧ a < Config.addrLimit) ∧
  ∀ i : Instr, (∀ a, i.address = some a → 0 ≤ a ∧ a < Config.addrLimit) → ∃ t, decode t = i

/-- The patterns of spec/opcode_table.json (R79), each made exact by its priority: a text decodes to
a row's value exactly when it has the row's shape. -/
def Obligations.OpcodeTableRowsDecideDecoding : Prop :=
  ∀ t : Text,
    (decode t = .empty ↔ ∀ c ∈ t, isSpace c = true) ∧
    (decode t = .hlt ↔ ∃ op, upper op = "HLT".toList ∧ opcodeShape t op) ∧
    (decode t = .missingOperand ↔
      ∃ op, isToken op ∧ upper op ≠ "HLT".toList ∧ oneTokenShape t op) ∧
    (∀ r, decode t = .invalidAddress r ↔
      ∃ op bad, isToken op ∧ isToken bad ∧ upper op ≠ "HLT".toList ∧ operandShape t op bad ∧
        validateAddress bad Config.addrLimit = .error r) ∧
    ∀ a : Int,
      (decode t = .load a ↔ ∃ op num, upper op = "LOAD".toList ∧ operandShape t op num ∧
        validateAddress num Config.addrLimit = .ok a) ∧
      (decode t = .store a ↔ ∃ op num, upper op = "STORE".toList ∧ operandShape t op num ∧
        validateAddress num Config.addrLimit = .ok a) ∧
      (decode t = .add a ↔ ∃ op num, upper op = "ADD".toList ∧ operandShape t op num ∧
        validateAddress num Config.addrLimit = .ok a) ∧
      (decode t = .sub a ↔ ∃ op num, upper op = "SUB".toList ∧ operandShape t op num ∧
        validateAddress num Config.addrLimit = .ok a) ∧
      (decode t = .unknown a ↔ ∃ op num, isToken op ∧
        upper op ∉ ["HLT".toList, "LOAD".toList, "STORE".toList, "ADD".toList, "SUB".toList] ∧
        operandShape t op num ∧ validateAddress num Config.addrLimit = .ok a)

/-- R80: the worked decodes. -/
def Obligations.WorkedDecodes : Prop :=
  decode [] = .empty ∧ decode "   ".toList = .empty ∧ decode "HLT".toList = .hlt ∧
  decode "hlt".toList = .hlt ∧ decode "HLT 5".toList = .hlt ∧
  decode "LOAD 2".toList = .load 2 ∧ decode "load   2".toList = .load 2 ∧
  decode "LOAD 007".toList = .load 7 ∧ decode "LOAD -0".toList = .load 0 ∧
  decode "STORE 255".toList = .store 255 ∧
  decode "STORE 256".toList = .invalidAddress .outOfRange ∧
  decode "ADD -1".toList = .invalidAddress .outOfRange ∧
  decode "ADD x1".toList = .invalidAddress .invalidInteger ∧
  decode "ADD 1.5".toList = .invalidAddress .invalidInteger ∧
  decode "SUB".toList = .missingOperand ∧ decode "LOAD".toList = .missingOperand ∧
  decode "LOAD2".toList = .missingOperand ∧ decode "FOO".toList = .missingOperand ∧
  decode "FOO 1".toList = .unknown 1 ∧
  decode "FOO 999".toList = .invalidAddress .outOfRange ∧
  decode "HLT.".toList = .missingOperand ∧ decode "ADD 1 2".toList = .add 1

/-- The encoder and the decoder agree on every well-formed instruction, every operand at every value
(the canonical spellings of R75; the texts of the error forms are the model's choice, log 23). -/
def Obligations.DecodeOfEncode : Prop :=
  ∀ i : Instr, i.wf = true → decode (encode i) = i

/-! The cycle (spec/40_cycle.md) -/

/-- R92: what `fetch` writes and what it leaves. -/
def Obligations.FetchEffect : Prop :=
  ∀ s : State,
    (fetch s).mar = s.pc ∧ (fetch s).ir = s.mem.getInstruction s.pc ∧
    (fetch s).mdr = .txt (s.mem.getInstruction s.pc) ∧ (fetch s).pc = s.pc + 1 ∧
    (fetch s).mem = s.mem ∧ (fetch s).ac = s.ac ∧ (fetch s).halted = s.halted ∧
    (fetch s).trace = s.trace ∧
    (s.halted = false ∧ s.pc < Config.memSize →
      (fetch s).mar < Config.memSize ∧ 1 ≤ (fetch s).pc ∧ (fetch s).pc ≤ Config.memSize)

/-- A step of a Running machine is `exec` of the instruction its slot decodes to, on the state with
MAR, MDR, IR and PC written by the fetch (R90 to R94). -/
def Obligations.StepRunsTheDecodedInstruction : Prop :=
  ∀ s : State, s.halted = false → s.pc < Config.memSize →
    step s = exec (decode (s.mem.getInstruction s.pc))
      { s with mar := s.pc, mdr := .txt (s.mem.getInstruction s.pc),
               ir := s.mem.getInstruction s.pc, pc := s.pc + 1 }

/-- R91: the gate. Closed, nothing changes however often `runCycle` is called; open, one fetch and
one `decodeExecute`, and the answer is the negated flag. -/
def Obligations.GateOfRunCycle : Prop :=
  ∀ s : State,
    (s.halted = true ∨ Config.memSize ≤ s.pc →
      runCycle s = (s, false) ∧ ∀ k, Host.Core.run core k s = .next s) ∧
    (s.halted = false ∧ s.pc < Config.memSize →
      ∃ t, decodeExecute (fetch s) = .next t ∧ step s = .next t ∧ runCycle s = (t, !t.halted))

/-- R97: when `runCycle` answers false, and the cycle that leaves `PC = N`. -/
def Obligations.RunCycleAnswer : Prop :=
  ∀ s : State,
    ((runCycle s).2 = false ↔
      s.isHalted = true ∨ (s.isHalted = false ∧ decode (s.mem.getInstruction s.pc) = .hlt)) ∧
    (s.halted = false → s.pc + 1 = Config.memSize → decode (s.mem.getInstruction s.pc) ≠ .hlt →
      (runCycle s).2 = true ∧ (runCycle s).1.pc = Config.memSize ∧
      runCycle (runCycle s).1 = ((runCycle s).1, false))

/-- R96: the empty cycle is the fetch alone, without a line; a slot where nothing was loaded is
one. -/
def Obligations.EmptyCycle : Prop :=
  ∀ s : State, s.halted = false → s.pc < Config.memSize →
    (s.mem.present s.pc = false → blank (s.mem.getInstruction s.pc) = true) ∧
    (blank (s.mem.getInstruction s.pc) = true →
      runCycle s =
        ({ s with mar := s.pc, mdr := .txt (s.mem.getInstruction s.pc),
                  ir := s.mem.getInstruction s.pc, pc := s.pc + 1 }, true))

/-- R100: what an executed cycle may change, in total, by the decoded form. Memory is said through
the reads of the three kinds of slot. -/
def Obligations.CycleChangesInTotal : Prop :=
  ∀ s : State, s.halted = false → s.pc < Config.memSize →
    ∃ t, step s = .next t ∧
      t.mar = s.pc ∧ t.mdr = .txt (s.mem.getInstruction s.pc) ∧
      t.ir = s.mem.getInstruction s.pc ∧ t.pc = s.pc + 1 ∧
      (∀ a, t.mem.getInstruction a = s.mem.getInstruction a ∧
        t.mem.present a = s.mem.present a) ∧
      changesBeyondFetch (decode (s.mem.getInstruction s.pc)) s t

/-- The exact text of every kind of trace line. Numbers and the separator are rendered as the spec's
own choice D12 says (R95, log 8); the reason's spelling is open (log 6). -/
def Obligations.TraceLineFormat : Prop :=
  (∀ e : TraceEntry,
    e.text = "PC=".toList ++ dec e.pc ++ " IR=".toList ++ e.ir ++ " ".toList ++ e.msg.text) ∧
  Message.text .programHalted = "Program Halted.".toList ∧
  Message.text (.error .missingOperand) = "Error: Missing operand".toList ∧
  (∀ r, Message.text (.error (.invalidAddress r)) =
    "Error: Invalid address: ".toList ++ Config.reasonText r) ∧
  (∀ n, Message.text (.accumulator n) = "AC=".toList ++ dec n) ∧
  (∀ a n, Message.text (.memoryWrite a n) =
    "Memory[".toList ++ dec a ++ "]=".toList ++ dec n) ∧
  Message.text (.error .unknownOpcode) = "Error: Unknown instruction".toList ∧
  TraceEntry.text { pc := 0, ir := "LOAD 2".toList, msg := .accumulator 5 } =
    "PC=0 IR=LOAD 2 AC=5".toList ∧
  TraceEntry.text { pc := 2, ir := "SUB 21".toList, msg := .accumulator (-7) } =
    "PC=2 IR=SUB 21 AC=-7".toList

/-! The instructions: what `exec` answers, on every state and operand -/

/-- LOAD completes: AC takes the data slot, one line, nothing else (pseudocode of R110). -/
def Obligations.LoadCompletes : Prop :=
  ∀ (a : Int) (s : State),
    exec (.load a) s =
      .next { s with
        ac := s.mem.getValue (effectiveAddress a)
        trace := s.trace ++
          [{ pc := s.pc - 1, ir := s.ir, msg := .accumulator (s.mem.getValue a) }] }

/-- STORE completes: the data slot takes AC, one line, nothing else; in range the slot reads AC
afterwards, out of range the write is dropped and the line stays (pseudocode and corner cases of
R111). -/
def Obligations.StoreCompletes : Prop :=
  ∀ (a : Int) (s : State),
    ∃ t, exec (.store a) s = .next t ∧
      t = { s with
        mem := s.mem.setData (effectiveAddress a) s.ac
        trace := s.trace ++ [{ pc := s.pc - 1, ir := s.ir, msg := .memoryWrite a s.ac }] } ∧
      (0 ≤ a ∧ a < Config.memSize → t.mem.getValue a = s.ac) ∧
      (¬(0 ≤ a ∧ a < Config.memSize) → t.mem = s.mem)

/-- ADD completes: AC takes the exact integer sum of AC and the data slot (pseudocode of R120; exact
over all integers is the spec's own choice D9, log 10). -/
def Obligations.AddCompletes : Prop :=
  ∀ (a : Int) (s : State),
    exec (.add a) s =
      .next { s with
        ac := s.ac + s.mem.getValue (effectiveAddress a)
        trace := s.trace ++
          [{ pc := s.pc - 1, ir := s.ir, msg := .accumulator (s.ac + s.mem.getValue a) }] }

/-- SUB completes: AC takes AC minus the data slot, exactly (pseudocode of R121; D9, log 10). -/
def Obligations.SubCompletes : Prop :=
  ∀ (a : Int) (s : State),
    exec (.sub a) s =
      .next { s with
        ac := s.ac - s.mem.getValue (effectiveAddress a)
        trace := s.trace ++
          [{ pc := s.pc - 1, ir := s.ir, msg := .accumulator (s.ac - s.mem.getValue a) }] }

/-- HLT completes: the flag is set, one line, nothing else (pseudocode of R130). -/
def Obligations.HltCompletes : Prop :=
  ∀ s : State,
    exec .hlt s =
      .next { s with
        halted := true
        trace := s.trace ++ [{ pc := s.pc - 1, ir := s.ir, msg := .programHalted }] }

/-- The blank form completes and changes nothing beyond the fetch (R94, R96). -/
def Obligations.EmptyCompletes : Prop := ∀ s : State, exec .empty s = .next s

/-- The three error forms complete with one error line of their kind and nothing else (pseudocode of
R94; effects of R171 to R173). -/
def Obligations.ErrorFormsComplete : Prop :=
  ∀ s : State,
    exec .missingOperand s =
      .next { s with trace := s.trace ++
        [{ pc := s.pc - 1, ir := s.ir, msg := .error .missingOperand }] } ∧
    (∀ r, exec (.invalidAddress r) s =
      .next { s with trace := s.trace ++
        [{ pc := s.pc - 1, ir := s.ir, msg := .error (.invalidAddress r) }] }) ∧
    (∀ a, exec (.unknown a) s =
      .next { s with trace := s.trace ++
        [{ pc := s.pc - 1, ir := s.ir, msg := .error .unknownOpcode }] })

/-- The frame of every form that stores nothing: all of memory reads as before, PC, IR, MAR and MDR
are unchanged, the flag changes only by HLT, AC only by LOAD, ADD and SUB, and the trace only
grows. -/
def Obligations.FrameOfFormsThatStoreNothing : Prop :=
  ∀ (i : Instr) (s t : State), (∀ a, i ≠ .store a) → exec i s = .next t →
    (∀ b, t.mem.getValue b = s.mem.getValue b) ∧
    (∀ b, t.mem.getInstruction b = s.mem.getInstruction b ∧ t.mem.present b = s.mem.present b) ∧
    t.pc = s.pc ∧ t.ir = s.ir ∧ t.mar = s.mar ∧ t.mdr = s.mdr ∧
    (i ≠ .hlt → t.halted = s.halted) ∧
    ((∀ a, i ≠ .load a ∧ i ≠ .add a ∧ i ≠ .sub a) → t.ac = s.ac) ∧
    ∃ more, t.trace = s.trace ++ more ∧ more.length ≤ 1

/-- The frame of STORE: every data slot but the one its effective address names reads as before, the
instruction plane and every register are unchanged, and the trace grows by one line. -/
def Obligations.FrameOfStore : Prop :=
  ∀ (a : Int) (s t : State), exec (.store a) s = .next t →
    (∀ b, b ≠ effectiveAddress a → t.mem.getValue b = s.mem.getValue b) ∧
    (∀ b, t.mem.getInstruction b = s.mem.getInstruction b ∧ t.mem.present b = s.mem.present b) ∧
    t.ac = s.ac ∧ t.pc = s.pc ∧ t.ir = s.ir ∧ t.mar = s.mar ∧ t.mdr = s.mdr ∧
    t.halted = s.halted ∧ ∃ e, t.trace = s.trace ++ [e]

/-- From a Running state, the text of each of the five instructions runs the whole cycle of that
instruction: any letter case of the mnemonic, any spelling of a valid address, any tokens behind
(R68, R70, R71, R110, R111, R120, R121, R130). -/
def Obligations.InstructionTextsRun : Prop :=
  ∀ (s : State) (op : Text) (rest : List Text), s.halted = false → s.pc < Config.memSize →
    tokens (s.mem.getInstruction s.pc) = op :: rest →
    (upper op = "HLT".toList →
      runCycle s = ({ fetch s with
        halted := true, trace := s.trace ++ [s.entry .programHalted] }, false)) ∧
    ∀ (num : Text) (more : List Text) (a : Int), rest = num :: more →
      validateAddress num Config.addrLimit = .ok a →
      (upper op = "LOAD".toList →
        runCycle s = ({ fetch s with
          ac := s.mem.getValue a
          trace := s.trace ++ [s.entry (.accumulator (s.mem.getValue a))] }, true)) ∧
      (upper op = "STORE".toList →
        runCycle s = ({ fetch s with
          mem := s.mem.setData a s.ac
          trace := s.trace ++ [s.entry (.memoryWrite a s.ac)] }, true)) ∧
      (upper op = "ADD".toList →
        runCycle s = ({ fetch s with
          ac := s.ac + s.mem.getValue a
          trace := s.trace ++ [s.entry (.accumulator (s.ac + s.mem.getValue a))] }, true)) ∧
      (upper op = "SUB".toList →
        runCycle s = ({ fetch s with
          ac := s.ac - s.mem.getValue a
          trace := s.trace ++ [s.entry (.accumulator (s.ac - s.mem.getValue a))] }, true))

/-- A value stored is read by the very next cycle: LOAD gives it back, ADD doubles AC, SUB clears it
(R209, corner cases of R120 and R121; exact arithmetic is D9, log 10). -/
def Obligations.StoreIsReadByTheNextCycle : Prop :=
  ∀ (s : State) (a : Int), s.halted = false → s.pc + 1 < Config.memSize →
    decode (s.mem.getInstruction s.pc) = .store a →
    (decode (s.mem.getInstruction (s.pc + 1)) = .load a →
      ∃ t, Host.Core.run core 2 s = .next t ∧ t.ac = s.ac) ∧
    (decode (s.mem.getInstruction (s.pc + 1)) = .add a →
      ∃ t, Host.Core.run core 2 s = .next t ∧ t.ac = s.ac + s.ac) ∧
    (decode (s.mem.getInstruction (s.pc + 1)) = .sub a →
      ∃ t, Host.Core.run core 2 s = .next t ∧ t.ac = 0)

/-! Errors (spec/60_exceptions.md) -/

/-- R175: an error cycle. The fetch has happened, exactly one line is appended (of the kind decode
found), AC, the flag, both planes and the presence flags are unchanged, `runCycle` returns true and
the next cycle fetches from the next slot. -/
def Obligations.ErrorCycleIsLocal : Prop :=
  ∀ (s : State) (k : ErrorKind), s.halted = false → s.pc < Config.memSize →
    errorOf (decode (s.mem.getInstruction s.pc)) = some k →
    ∃ t, runCycle s = (t, true) ∧
      t.mar = s.pc ∧ t.ir = s.mem.getInstruction s.pc ∧
      t.mdr = .txt (s.mem.getInstruction s.pc) ∧ t.pc = s.pc + 1 ∧
      t.trace = s.trace ++ [s.entry (.error k)] ∧
      t.ac = s.ac ∧ t.halted = s.halted ∧
      ∀ b, t.mem.getValue b = s.mem.getValue b ∧
        t.mem.getInstruction b = s.mem.getInstruction b ∧ t.mem.present b = s.mem.present b

/-- R177: nothing is fatal. Every instruction and every step answers a next state, and a Running
machine becomes Halted only by HLT or by PC reaching `N`. -/
def Obligations.NothingIsFatal : Prop :=
  (∀ (i : Instr) (s : State), ∃ t, exec i s = .next t) ∧
  (∀ s : State, ∃ t, step s = .next t) ∧
  ∀ s t : State, step s = .next t → s.isRunning = true → t.isHalted = true →
    decode (s.mem.getInstruction s.pc) = .hlt ∨ t.pc = Config.memSize

/-! Whole-machine rules -/

/-- R58: no run of the core changes what a later fetch returns, and a text that `loadProgram` writes
is what the very next fetch of that slot returns. -/
def Obligations.FetchNeverSeesAStore : Prop :=
  (∀ (k : Nat) (s : State), ∃ t, Host.Core.run core k s = .next t ∧
    ∀ a, t.mem.getInstruction a = s.mem.getInstruction a ∧
      t.mem.present a = s.mem.present a) ∧
  ∀ (s : State) (text : Text) (ds : List (Int × Int)), s.pc < Config.memSize →
    (fetch (loadProgram { instructions := [((s.pc : Int), text)], dataValues := ds } s)).ir = text

/-- R133: Halted is terminal. No operation of the host on a constructed core but `reset()` leaves
Halted, and none but `loadProgram` changes a Halted machine at all. Construction is no operation on
that core: it makes a new one (log 28). -/
def Obligations.HaltedIsTerminal : Prop :=
  ∀ (op : HostOp) (s : State), op ≠ .reset → op ≠ .construct → s.isHalted = true →
    (hostStep op s).1.isHalted = true ∧
    ((∀ p, op ≠ .loadProgram p) → (hostStep op s).1 = s)

/-- No instruction tests data and none writes PC: two machines that agree on everything but AC, the
data plane and the trace go through the same fetches for ever (R123, R132). -/
def Obligations.ControlIsIndependentOfData : Prop :=
  ∀ (k : Nat) (s t : State), s.SameControl t →
    ∃ s' t', Host.Core.run core k s = .next s' ∧ Host.Core.run core k t = .next t' ∧
      s'.SameControl t'

/-- A program cannot observe the trace, and no cycle reads the old IR, MAR or MDR (R25, R188): two
machines that differ in those alone compute the same AC, PC, flag and memory and append the same
lines. -/
def Obligations.TraceAndLatchesAreNotObserved : Prop :=
  ∀ (k : Nat) (s t : State),
    s.ac = t.ac → s.pc = t.pc → s.halted = t.halted → s.mem = t.mem →
    ∃ s' t' more, Host.Core.run core k s = .next s' ∧ Host.Core.run core k t = .next t' ∧
      s'.ac = t'.ac ∧ s'.pc = t'.pc ∧ s'.halted = t'.halted ∧ s'.mem = t'.mem ∧
      s'.trace = s.trace ++ more ∧ t'.trace = t.trace ++ more

/-! The host interface (spec/48_host_interface.md) -/

/-- `loadProgram` writes both planes and nothing else; a slot reads the last pair given for it, or what
it held before; out-of-range pairs are dropped; the order of the two groups does not matter; and a pair
with no later pair at its address reads back (R142, R155). That the last of several pairs at one address
is the one that counts is the spec's own decision D18 (R143; log 19, unsafe for repeated addresses). -/
def Obligations.LoadProgramEffect : Prop :=
  (∀ (p : Program) (s : State),
    (loadProgram p s).ac = s.ac ∧ (loadProgram p s).pc = s.pc ∧ (loadProgram p s).ir = s.ir ∧
    (loadProgram p s).mar = s.mar ∧ (loadProgram p s).mdr = s.mdr ∧
    (loadProgram p s).halted = s.halted ∧ (loadProgram p s).trace = s.trace ∧
    (∀ a : Int, 0 ≤ a → a < Config.memSize →
      (loadProgram p s).mem.getInstruction a =
        (lastPair p.instructions a).getD (s.mem.getInstruction a) ∧
      (loadProgram p s).mem.present a =
        ((lastPair p.instructions a).isSome || s.mem.present a) ∧
      (loadProgram p s).mem.getValue a =
        (lastPair p.dataValues a).getD (s.mem.getValue a)) ∧
    (∀ a : Int, a < 0 ∨ (Config.memSize : Int) ≤ a →
      (loadProgram p s).mem.getInstruction a = [] ∧ (loadProgram p s).mem.getValue a = 0) ∧
    loadData p.dataValues (loadInstructions p.instructions s.mem) =
      loadInstructions p.instructions (loadData p.dataValues s.mem)) ∧
  ∀ (s : State) (a : Int), 0 ≤ a → a < Config.memSize →
    (∀ (t : Text) (pre post : List (Int × Text)) (ds : List (Int × Int)),
      (∀ q ∈ post, q.1 ≠ a) →
      (loadProgram { instructions := pre ++ (a, t) :: post, dataValues := ds } s).mem.getInstruction a
        = t) ∧
    (∀ (v : Int) (pre post : List (Int × Int)) (is : List (Int × Text)),
      (∀ q ∈ post, q.1 ≠ a) →
      (loadProgram { instructions := is, dataValues := pre ++ (a, v) :: post } s).mem.getValue a
        = v)

/-- R148, R149: `runProgram` cycles until Halted, in at most `N − PC` cycles, each of which adds 1 to
PC; more calls change nothing; it returns the whole accumulated trace, and on a Halted machine it
executes no cycle. The source's loop is unbounded and the model writes it with a bounded number of calls
(log 25, DEDUCED); the clause on more calls says that the bound never cuts it short. -/
def Obligations.RunProgramEnds : Prop :=
  ∀ s : State,
    cyclesIn (runBound s) s ≤ Config.memSize - s.pc ∧
    (runProgram s).1.isHalted = true ∧
    Host.Core.run core (cyclesIn (runBound s) s) s = .next (runProgram s).1 ∧
    (runProgram s).1.pc = s.pc + cyclesIn (runBound s) s ∧
    (∀ k, runBound s ≤ k → runLoop k s = (runProgram s).1) ∧
    (runProgram s).2 = (runProgram s).1.traceLines ∧
    (∃ more, (runProgram s).2 = s.traceLines ++ more) ∧
    (s.isHalted = true → runProgram s = (s, s.traceLines))

/-- R131: the implicit halt at `PC = N`: no line, no flag, no error; the stopping value is exactly
`N`, and from reset a program without HLT executes exactly `N` cycles. -/
def Obligations.ImplicitHalt : Prop :=
  (∀ s : State, Config.memSize ≤ s.pc → runCycle s = (s, false) ∧ s.isHalted = true) ∧
  (∀ s : State, s.halted = false → s.pc < Config.memSize →
    decode (s.mem.getInstruction s.pc) ≠ .hlt →
    (runCycle s).1.pc = s.pc + 1 ∧ (runCycle s).1.halted = false) ∧
  ∀ p : Program,
    (∀ a : Int, 0 ≤ a → a < Config.memSize →
      decode ((loadProgram p construct).mem.getInstruction a) ≠ .hlt) →
    cyclesIn (runBound (loadProgram p construct)) (loadProgram p construct) = Config.memSize ∧
    (runProgram (loadProgram p construct)).1.pc = Config.memSize ∧
    (runProgram (loadProgram p construct)).1.halted = false

/-- R212: a run from reset executes at most `N` cycles, and a program whose first HLT is at `h`
executes exactly `h + 1`. -/
def Obligations.FirstHltEndsTheRun : Prop :=
  ∀ p : Program,
    cyclesIn (runBound (loadProgram p construct)) (loadProgram p construct) ≤ Config.memSize ∧
    ∀ h : Nat, h < Config.memSize →
      decode ((loadProgram p construct).mem.getInstruction h) = .hlt →
      (∀ a : Nat, a < h → decode ((loadProgram p construct).mem.getInstruction a) ≠ .hlt) →
      cyclesIn (runBound (loadProgram p construct)) (loadProgram p construct) = h + 1 ∧
      (runProgram (loadProgram p construct)).1.halted = true ∧
      (runProgram (loadProgram p construct)).1.pc = h + 1

/-- The verdict and the list of `checkDuplicateInstructions` (R146): it accepts exactly the lists in
which no address gets two non-blank instructions, and otherwise the list names an address at each of
its occurrences after the first, in insertion order, hence once per extra occurrence. Non-empty read as
not blank, and the multiplicity, are the spec's own choice D19 (log 19). -/
def Obligations.DuplicateCheckVerdict : Prop :=
  ∀ ps : List (Int × Text),
    (checkDuplicateInstructions ps = .ok () ↔ (assignedAddresses ps).Nodup) ∧
    ∀ ds, checkDuplicateInstructions ps = .error (.duplicateInstructionAddress ds) →
      ds ≠ [] ∧ ds = repeatedAddresses (assignedAddresses ps) ∧
      ∀ a, ds.count a = (assignedAddresses ps).count a - 1

/-- A valid program (R147) loaded after reset never logs a missing operand or an invalid address;
the reading of validity is the model's (log 26). -/
def Obligations.ValidProgramLogsNoOperandError : Prop :=
  ∀ p : Program, p.valid = true →
    ∀ e ∈ (runProgram (loadProgram p construct)).1.trace, e.isOperandError = false

/-- Snapshots and the trace output change nothing and answer the registers, the data slots and the
lines (R150, R151; reading `halted` and instruction texts is the spec's own choice D23, D25,
log 20). -/
def Obligations.ReadingChangesNothing : Prop :=
  ∀ s : State,
    (∀ k, (hostStep (.snapshot k) s).1 = s) ∧ (hostStep .readTrace s).1 = s ∧
    (hostStep .readTrace s).2 = .lines (s.trace.map TraceEntry.text) ∧
    snapshot .ac s = .int s.ac ∧ snapshot .pc s = .int s.pc ∧ snapshot .ir s = .text s.ir ∧
    snapshot .mar s = .int s.mar ∧ snapshot .mdr s = .mdr s.mdr ∧
    snapshot .halted s = .bit s.halted ∧
    ∀ a, snapshot (.data a) s = .int (s.mem.getValue a) ∧
      snapshot (.instruction a) s = .text (s.mem.getInstruction a)

/-! Invariants -/

/-- The invariant `State.Inv` holds at reset: the clauses of R35, and the model's own two, that the
memory is canonical (log 3, DEDUCED) and that the cycles since reset are counted by PC (log 27,
DEDUCED). -/
def Obligations.InvariantAtReset : Prop := State.reset.Inv

/-- Every step keeps `State.Inv`, from every state that meets it. From R35: PC and MAR stay in range,
MAR, MDR and IR stay those of the last fetch, the flag is set only after an HLT text, and the trace has
no more lines than cycles were executed. The model's own: the memory stays canonical (log 3, DEDUCED),
and "cycles executed" and "no fetch yet" are read from PC (log 27, DEDUCED). -/
def Obligations.StepKeepsInvariant : Prop :=
  ∀ s t : State, s.Inv → step s = .next t → t.Inv

/-- R35: what holds in every state the host can reach by any sequence of operations, `n` cycles
after the last reset (or after the construction of the core it drives, log 28). -/
def Obligations.ReachableStates : Prop :=
  ∀ (n : Nat) (s : State), Reachable n s →
    s.pc ≤ Config.memSize ∧ s.mar ≤ Config.memSize - 1 ∧
    (1 ≤ n → (s.mar : Int) = s.pc - 1 ∧ s.mdr = .txt s.ir) ∧
    (n = 0 → s.pc = 0 ∧ s.mar = 0 ∧ s.ir = [] ∧ s.mdr = Config.mdrReset) ∧
    (s.halted = true → decode s.ir = .hlt) ∧
    s.trace.length ≤ n

/-- The reset state meets `State.OperandsValid`, and loading a valid program keeps it (R147 as the model
reads it, log 26). -/
def Obligations.OperandsValidEstablished : Prop :=
  State.reset.OperandsValid ∧
  ∀ (p : Program) (s : State), p.valid = true → s.OperandsValid → (loadProgram p s).OperandsValid

/-- Every step keeps `State.OperandsValid`, from every state that meets it: where every loaded text
passes the validation of R147 as the model reads it (log 26), no cycle logs a missing operand or an
invalid address, and every text still passes. -/
def Obligations.StepKeepsOperandsValid : Prop :=
  ∀ s t : State, s.OperandsValid → step s = .next t → t.OperandsValid
end

