-- ==== Sys2Proof/Laws/Decode.lean ====
section
/-! SUPPORT. The laws of the lexical functions, the validator and the decoder: what each answers,
said once. -/

namespace Sys2Proof

/-! Tokens (R61, R62) -/

@[simp] theorem blank_nil : blank [] = true := rfl

theorem blank_cons (c : Char) (t : Text) : blank (c :: t) = (isSpace c && blank t) := rfl

@[simp] theorem extendHead_cons (c : Char) (t : Text) (ts : List Text) :
    extendHead c (t :: ts) = (c :: t) :: ts := rfl

theorem tokens_cons_space {c : Char} (h : isSpace c = true) (t : Text) :
    tokens (c :: t) = tokens t := by
  simp [tokens, h]

/-- Leading whitespace makes no token (R62). -/
theorem tokens_append_blank {w : Text} (h : blank w = true) (t : Text) :
    tokens (w ++ t) = tokens t := by
  induction w with
  | nil => rfl
  | cons c cs ih =>
    rw [blank_cons, Bool.and_eq_true] at h
    rw [List.cons_append, tokens_cons_space h.1, ih h.2]

/-- A maximal run of non-whitespace is one token (R62). -/
theorem tokens_append_token {tok : Text} (hne : tok ≠ []) (h : ∀ c ∈ tok, isSpace c = false)
    {rest : Text} (hr : startsToken rest = false) : tokens (tok ++ rest) = tok :: tokens rest := by
  induction tok with
  | nil => exact absurd rfl hne
  | cons c cs ih =>
    have hc : isSpace c = false := h c List.mem_cons_self
    rcases cs with _ | ⟨d, ds⟩
    · simp [tokens, hc, hr]
    · have hd : isSpace d = false := h d (by simp)
      have ih := ih (by simp) (fun x hx => h x (List.mem_cons_of_mem _ hx))
      rw [List.cons_append, tokens, hc, ih]
      simp [startsToken, hd]

/-- What follows a token: nothing, or a text whose first character is whitespace. -/
theorem startsToken_false_iff (t : Text) :
    startsToken t = false ↔ t = [] ∨ ∃ c cs, t = c :: cs ∧ isSpace c = true := by
  rcases t with _ | ⟨c, cs⟩ <;> simp [startsToken]

/-- A text has no token exactly when it is blank (R61, R62). -/
theorem tokens_eq_nil_iff (t : Text) : tokens t = [] ↔ blank t = true := by
  induction t with
  | nil => simp [tokens]
  | cons c cs ih =>
    rw [blank_cons]
    by_cases hc : isSpace c = true
    · simp [tokens, hc, ih]
    · have hc : isSpace c = false := by simpa using hc
      simp only [tokens, hc, Bool.false_and, Bool.false_eq_true, if_false, iff_false]
      split
      · rcases tokens cs with _ | ⟨a, b⟩ <;> simp [extendHead]
      · simp

/-- Every text is whitespace, then (if it is not blank) its first token and the rest. -/
theorem exists_firstToken {t : Text} (h : blank t = false) :
    ∃ w tok rest, t = w ++ tok ++ rest ∧ blank w = true ∧ tok ≠ [] ∧
      (∀ c ∈ tok, isSpace c = false) ∧ startsToken rest = false := by
  induction t with
  | nil => simp at h
  | cons c cs ih =>
    by_cases hc : isSpace c = true
    · rw [blank_cons, hc, Bool.true_and] at h
      obtain ⟨w, tok, rest, rfl, hw, h1, h2, h3⟩ := ih h
      exact ⟨c :: w, tok, rest, rfl, by rw [blank_cons, hc, hw]; rfl, h1, h2, h3⟩
    · have hc : isSpace c = false := by simpa using hc
      refine ⟨[], (c :: cs).takeWhile (fun x => !isSpace x),
        (c :: cs).dropWhile (fun x => !isSpace x), by simp, rfl, by simp [hc], ?_, ?_⟩
      · intro x hx
        simpa using List.mem_takeWhile_imp hx
      · rw [startsToken_false_iff]
        rcases hd : (c :: cs).dropWhile (fun x => !isSpace x) with _ | ⟨d, ds⟩
        · exact .inl rfl
        · refine .inr ⟨d, ds, rfl, ?_⟩
          have := List.head_dropWhile_not (fun x => !isSpace x) (l := c :: cs) (by simp [hd])
          simpa [hd] using this

/-! Numerals (R67, R32) -/

theorem digitValue_eq_some {c : Char} {d : Nat} :
    digitValue c = some d ↔ (0x30 ≤ c.toNat ∧ c.toNat ≤ 0x39) ∧ d = c.toNat - 0x30 := by
  unfold digitValue
  split <;> simp_all [eq_comm]

/-- A digit of `Nat.toDigits` in base ten reads back as its value. -/
theorem digitValue_digitChar {d : Nat} (h : d < 10) : digitValue d.digitChar = some d := by
  interval_cases d <;> decide

theorem digitsValue_append (acc : Nat) (x y : Text) :
    digitsValue acc (x ++ y) = (digitsValue acc x).bind (fun n => digitsValue n y) := by
  induction x generalizing acc with
  | nil => rfl
  | cons c cs ih =>
    simp only [List.cons_append, digitsValue]
    rcases digitValue c with _ | d
    · rfl
    · exact ih _

theorem digitsValue_toDigits (n : Nat) : digitsValue 0 (Nat.toDigits 10 n) = some n := by
  induction n using Nat.strongRecOn with
  | _ n ih =>
    by_cases h : n < 10
    · rw [Nat.toDigits_of_lt_base h]
      simp [digitsValue, digitValue_digitChar h]
    · have h : 10 ≤ n := Nat.not_lt.mp h
      rw [Nat.toDigits_of_base_le (by decide) h, digitsValue_append, ih (n / 10) (by omega)]
      have hd : digitValue (n % 10).digitChar = some (n % 10) :=
        digitValue_digitChar (Nat.mod_lt _ (by decide))
      simp only [Option.bind_some, digitsValue, hd]
      congr 1
      omega

theorem toDigits_ne_nil (n : Nat) : Nat.toDigits 10 n ≠ [] := by
  intro h
  have := digitsValue_toDigits n
  rw [h] at this
  by_cases hn : n < 10
  · rw [Nat.toDigits_of_lt_base hn] at h; simp at h
  · rw [Nat.toDigits_of_base_le (by decide) (Nat.not_lt.mp hn)] at h; simp at h

theorem natParse_of_ne_nil {t : Text} (h : t ≠ []) : natParse t = digitsValue 0 t := by
  rcases t with _ | ⟨c, cs⟩
  · exact absurd rfl h
  · rfl

theorem natParse_toDigits (n : Nat) : natParse (Nat.toDigits 10 n) = some n := by
  rw [natParse_of_ne_nil (toDigits_ne_nil n), digitsValue_toDigits]

theorem intParse_minus (t : Text) :
    intParse ('-' :: t) = (natParse t).map (fun n : Nat => -(n : Int)) := by
  simp [intParse]

/-- A text that parses as a natural number does not begin with the sign. -/
theorem intParse_of_natParse {t : Text} {n : Nat} (h : natParse t = some n) :
    intParse t = some (n : Int) := by
  rcases t with _ | ⟨c, cs⟩
  · simp [natParse] at h
  · have hc : c ≠ '-' := by
      rintro rfl
      have : digitValue '-' = none := by decide
      simp [natParse, digitsValue, this] at h
    simp [intParse, hc, h]

/-- R32, R67: the rendering of an integer parses to that integer. -/
theorem intParse_dec (z : Int) : intParse (dec z) = some z := by
  unfold dec
  split
  · next h =>
    rw [intParse_minus, natParse_toDigits]
    simp only [Option.map_some]
    congr 1
    omega
  · next h =>
    rw [intParse_of_natParse (natParse_toDigits _)]
    congr 1
    omega

theorem isSpace_eq_false_of_digit {c : Char} (h1 : 0x30 ≤ c.toNat) (h2 : c.toNat ≤ 0x39) :
    isSpace c = false := by
  simp only [isSpace, Bool.or_eq_false_iff, beq_eq_false_iff_ne, Bool.and_eq_false_iff,
    decide_eq_false_iff_not]
  omega

theorem digits_of_digitsValue {acc n : Nat} {t : Text} (h : digitsValue acc t = some n) :
    ∀ c ∈ t, 0x30 ≤ c.toNat ∧ c.toNat ≤ 0x39 := by
  induction t generalizing acc with
  | nil => simp
  | cons c cs ih =>
    simp only [digitsValue] at h
    rcases hd : digitValue c with _ | d
    · simp [hd] at h
    · rw [hd] at h
      intro x hx
      rcases List.mem_cons.mp hx with rfl | hx
      · exact (digitValue_eq_some.mp hd).1
      · exact ih h x hx

/-- A numeral is one token: it is not empty and holds no whitespace. -/
theorem token_of_intParse {t : Text} {v : Int} (h : intParse t = some v) :
    t ≠ [] ∧ ∀ c ∈ t, isSpace c = false := by
  have key : ∀ {u : Text} {n : Nat}, natParse u = some n → ∀ c ∈ u, isSpace c = false := by
    intro u n hu c hc
    rcases u with _ | ⟨d, ds⟩
    · simp at hc
    · obtain ⟨h1, h2⟩ := digits_of_digitsValue (acc := 0) hu c hc
      exact isSpace_eq_false_of_digit h1 h2
  rcases t with _ | ⟨c, cs⟩
  · simp [intParse] at h
  · refine ⟨by simp, ?_⟩
    simp only [intParse] at h
    split at h
    · next hc =>
      obtain ⟨n, hn, -⟩ := Option.map_eq_some_iff.mp h
      intro x hx
      rcases List.mem_cons.mp hx with rfl | hx
      · rw [hc]; decide
      · exact key hn x hx
    · obtain ⟨n, hn, -⟩ := Option.map_eq_some_iff.mp h
      exact key hn

/-! The validator (R66) -/

/-- R66: what `validateAddress` accepts. -/
theorem validateAddress_eq_ok {t : Text} {m v : Int} :
    validateAddress t m = .ok v ↔ intParse t = some v ∧ 0 ≤ v ∧ v < m := by
  unfold validateAddress
  rcases intParse t with _ | w
  · simp
  · simp only [Option.some.injEq]
    split
    · simp only [reduceCtorEq, false_iff, not_and]
      rintro rfl; omega
    · simp only [Except.ok.injEq]
      constructor
      · rintro rfl; omega
      · exact fun h => h.1

/-! Decode (R68) -/

/-- R68 through the tokens: a text decodes as its token list does. -/
theorem decode_eq_decodeTokens (t : Text) : decode t = decodeTokens (tokens t) := by
  unfold decode
  split
  · next h => rw [(tokens_eq_nil_iff t).mpr h]; rfl
  · rfl

/-- R68, R130: any text whose normalised opcode is HLT. -/
theorem decode_hlt {t op : Text} {rest : List Text} (h : tokens t = op :: rest)
    (hop : upper op = mnHlt) : decode t = .hlt := by
  rw [decode_eq_decodeTokens, h]
  simp [decodeTokens, hop]

/-- R68: two tokens, the first not HLT, the second a valid address. -/
theorem decode_operand {t op num : Text} {rest : List Text} {a : Int}
    (h : tokens t = op :: num :: rest) (hop : upper op ≠ mnHlt)
    (ha : validateAddress num Config.addrLimit = .ok a) : decode t = decodeOpcode (upper op) a := by
  rw [decode_eq_decodeTokens, h]
  simp [decodeTokens, hop, ha]

end Sys2Proof
end

