-- ==== Sys2Proof/Laws/State.lean ====
section
/-! SUPPORT. One lemma per field and update of State, each true by rfl: no later proof unfolds a
record update. -/

namespace Sys2Proof.Machine

@[simp] theorem State.setAc_ac (v : Int) (s : State) : (s.setAc v).ac = v := rfl
@[simp] theorem State.setAc_pc (v : Int) (s : State) : (s.setAc v).pc = s.pc := rfl
@[simp] theorem State.setAc_ir (v : Int) (s : State) : (s.setAc v).ir = s.ir := rfl
@[simp] theorem State.setAc_mar (v : Int) (s : State) : (s.setAc v).mar = s.mar := rfl
@[simp] theorem State.setAc_mdr (v : Int) (s : State) : (s.setAc v).mdr = s.mdr := rfl
@[simp] theorem State.setAc_halted (v : Int) (s : State) : (s.setAc v).halted = s.halted := rfl
@[simp] theorem State.setAc_mem (v : Int) (s : State) : (s.setAc v).mem = s.mem := rfl
@[simp] theorem State.setAc_trace (v : Int) (s : State) : (s.setAc v).trace = s.trace := rfl

@[simp] theorem State.setData_ac (a : Int) (v : Int) (s : State) :
    (s.setData a v).ac = s.ac := rfl
@[simp] theorem State.setData_pc (a : Int) (v : Int) (s : State) :
    (s.setData a v).pc = s.pc := rfl
@[simp] theorem State.setData_ir (a : Int) (v : Int) (s : State) :
    (s.setData a v).ir = s.ir := rfl
@[simp] theorem State.setData_mar (a : Int) (v : Int) (s : State) :
    (s.setData a v).mar = s.mar := rfl
@[simp] theorem State.setData_mdr (a : Int) (v : Int) (s : State) :
    (s.setData a v).mdr = s.mdr := rfl
@[simp] theorem State.setData_halted (a : Int) (v : Int) (s : State) :
    (s.setData a v).halted = s.halted := rfl
@[simp] theorem State.setData_mem (a : Int) (v : Int) (s : State) :
    (s.setData a v).mem = s.mem.setData a v := rfl
@[simp] theorem State.setData_trace (a : Int) (v : Int) (s : State) :
    (s.setData a v).trace = s.trace := rfl

@[simp] theorem State.log_ac (m : Message) (s : State) : (s.log m).ac = s.ac := rfl
@[simp] theorem State.log_pc (m : Message) (s : State) : (s.log m).pc = s.pc := rfl
@[simp] theorem State.log_ir (m : Message) (s : State) : (s.log m).ir = s.ir := rfl
@[simp] theorem State.log_mar (m : Message) (s : State) : (s.log m).mar = s.mar := rfl
@[simp] theorem State.log_mdr (m : Message) (s : State) : (s.log m).mdr = s.mdr := rfl
@[simp] theorem State.log_halted (m : Message) (s : State) : (s.log m).halted = s.halted := rfl
@[simp] theorem State.log_mem (m : Message) (s : State) : (s.log m).mem = s.mem := rfl
@[simp] theorem State.log_trace (m : Message) (s : State) :
    (s.log m).trace = s.trace ++ [{ pc := (s.pc : Int) - 1, ir := s.ir, msg := m }] := rfl

@[simp] theorem State.setHalted_ac (s : State) : (s.setHalted).ac = s.ac := rfl
@[simp] theorem State.setHalted_pc (s : State) : (s.setHalted).pc = s.pc := rfl
@[simp] theorem State.setHalted_ir (s : State) : (s.setHalted).ir = s.ir := rfl
@[simp] theorem State.setHalted_mar (s : State) : (s.setHalted).mar = s.mar := rfl
@[simp] theorem State.setHalted_mdr (s : State) : (s.setHalted).mdr = s.mdr := rfl
@[simp] theorem State.setHalted_halted (s : State) : (s.setHalted).halted = true := rfl
@[simp] theorem State.setHalted_mem (s : State) : (s.setHalted).mem = s.mem := rfl
@[simp] theorem State.setHalted_trace (s : State) : (s.setHalted).trace = s.trace := rfl

@[simp] theorem fetch_ac (s : State) : (fetch s).ac = s.ac := rfl
@[simp] theorem fetch_pc (s : State) : (fetch s).pc = s.pc + 1 := rfl
@[simp] theorem fetch_ir (s : State) : (fetch s).ir = s.mem.getInstruction (s.pc : Int) := rfl
@[simp] theorem fetch_mar (s : State) : (fetch s).mar = s.pc := rfl
@[simp] theorem fetch_mdr (s : State) :
    (fetch s).mdr = .txt (s.mem.getInstruction (s.pc : Int)) := rfl
@[simp] theorem fetch_halted (s : State) : (fetch s).halted = s.halted := rfl
@[simp] theorem fetch_mem (s : State) : (fetch s).mem = s.mem := rfl
@[simp] theorem fetch_trace (s : State) : (fetch s).trace = s.trace := rfl

@[simp] theorem resetMachine_ac (s : State) : (resetMachine s).ac = 0 := rfl
@[simp] theorem resetMachine_pc (s : State) : (resetMachine s).pc = 0 := rfl
@[simp] theorem resetMachine_ir (s : State) : (resetMachine s).ir = [] := rfl
@[simp] theorem resetMachine_mar (s : State) : (resetMachine s).mar = 0 := rfl
@[simp] theorem resetMachine_mdr (s : State) : (resetMachine s).mdr = Config.mdrReset := rfl
@[simp] theorem resetMachine_halted (s : State) : (resetMachine s).halted = false := rfl
@[simp] theorem resetMachine_mem (s : State) : (resetMachine s).mem = Memory.empty := rfl
@[simp] theorem resetMachine_trace (s : State) : (resetMachine s).trace = [] := rfl

@[simp] theorem loadProgram_ac (p : Program) (s : State) : (loadProgram p s).ac = s.ac := rfl
@[simp] theorem loadProgram_pc (p : Program) (s : State) : (loadProgram p s).pc = s.pc := rfl
@[simp] theorem loadProgram_ir (p : Program) (s : State) : (loadProgram p s).ir = s.ir := rfl
@[simp] theorem loadProgram_mar (p : Program) (s : State) : (loadProgram p s).mar = s.mar := rfl
@[simp] theorem loadProgram_mdr (p : Program) (s : State) : (loadProgram p s).mdr = s.mdr := rfl
@[simp] theorem loadProgram_halted (p : Program) (s : State) :
    (loadProgram p s).halted = s.halted := rfl
@[simp] theorem loadProgram_mem (p : Program) (s : State) :
    (loadProgram p s).mem = loadData p.dataValues (loadInstructions p.instructions s.mem) := rfl
@[simp] theorem loadProgram_trace (p : Program) (s : State) :
    (loadProgram p s).trace = s.trace := rfl

@[simp] theorem placeNext_ac (t : Text) (s : State) : (placeNext t s).ac = s.ac := rfl
@[simp] theorem placeNext_pc (t : Text) (s : State) :
    (placeNext t s).pc = if Config.memSize ≤ s.pc then 0 else s.pc := rfl
@[simp] theorem placeNext_ir (t : Text) (s : State) : (placeNext t s).ir = s.ir := rfl
@[simp] theorem placeNext_mar (t : Text) (s : State) : (placeNext t s).mar = s.mar := rfl
@[simp] theorem placeNext_mdr (t : Text) (s : State) : (placeNext t s).mdr = s.mdr := rfl
@[simp] theorem placeNext_halted (t : Text) (s : State) : (placeNext t s).halted = false := rfl
@[simp] theorem placeNext_mem (t : Text) (s : State) :
    (placeNext t s).mem = s.mem.setInstruction (((if Config.memSize ≤ s.pc then 0 else s.pc) : Nat) : Int) t := rfl
@[simp] theorem placeNext_trace (t : Text) (s : State) : (placeNext t s).trace = s.trace := rfl

@[simp] theorem State.reset_ac : State.reset.ac = 0 := rfl
@[simp] theorem State.reset_pc : State.reset.pc = 0 := rfl
@[simp] theorem State.reset_ir : State.reset.ir = [] := rfl
@[simp] theorem State.reset_mar : State.reset.mar = 0 := rfl
@[simp] theorem State.reset_mdr : State.reset.mdr = Config.mdrReset := rfl
@[simp] theorem State.reset_halted : State.reset.halted = false := rfl
@[simp] theorem State.reset_mem : State.reset.mem = Memory.empty := rfl
@[simp] theorem State.reset_trace : State.reset.trace = [] := rfl

/-! The updates that are one of those above under another name. -/

@[simp] theorem State.raise_eq_log (k : ErrorKind) (s : State) : s.raise k = s.log (.error k) := rfl

@[simp] theorem writeOperand_eq_setData (a : Int) (v : Int) (s : State) :
    writeOperand a v s = s.setData a v := rfl

@[simp] theorem readOperand_eq_getValue (a : Int) (s : State) :
    readOperand a s = s.mem.getValue a := rfl

@[simp] theorem accumulate_eq_log_setAc (v : Int) (s : State) :
    accumulate v s = (s.setAc v).log (.accumulator v) := rfl

@[simp] theorem construct_eq_reset : construct = State.reset := rfl

@[simp] theorem resetMachine_eq_reset (s : State) : resetMachine s = State.reset := rfl

/-- R34, R47: reset leaves the empty memory, so nothing of the state before survives. -/
theorem Memory.clear_eq_empty (m : Memory) : m.clear = Memory.empty := rfl

end Sys2Proof.Machine
end

