-- ==== Sys2Proof/Laws/Memory.lean ====
section
/-! SUPPORT. The laws of one plane and of the five memory operations (R43 to R48): reads after
writes, the frame, and the canonical form that every operation keeps. -/

namespace Sys2Proof.Machine

/-- R8: there is at least one slot. -/
theorem memSize_pos : 0 < Config.memSize := by decide

theorem inRange_iff (a : Int) : inRange a = true ↔ 0 ≤ a ∧ a < (Config.memSize : Int) := by
  simp only [inRange, Bool.and_eq_true, decide_eq_true_eq]
  omega

theorem inRange_natCast (n : Nat) : inRange (n : Int) = true ↔ n < Config.memSize := by
  simp [inRange]

/-! One plane -/

section Plane
variable {α : Type}

theorem planeFind_planeErase (p : List (Nat × α)) (a b : Nat) :
    planeFind (planeErase p a) b = if b = a then none else planeFind p b := by
  induction p with
  | nil => simp [planeErase, planeFind]
  | cons c cs ih =>
    by_cases hca : c.1 = a
    · simp only [planeErase, planeFind, if_pos hca, ih]
      by_cases hb : b = a
      · simp [hb]
      · have : ¬ c.1 = b := fun h => hb (h ▸ hca)
        simp [hb, this]
    · simp only [planeErase, planeFind, if_neg hca, ih]
      by_cases hb : b = a
      · subst hb; simp [hca]
      · simp [hb]

theorem planeFind_planeSet (p : List (Nat × α)) (a b : Nat) (v : α) :
    planeFind (planeSet p a v) b = if b = a then some v else planeFind p b := by
  induction p with
  | nil => simp [planeSet, planeFind, eq_comm]
  | cons c cs ih =>
    simp only [planeSet]
    split
    · simp [planeFind, eq_comm]
    · split
      · next h => simp only [planeFind, h]; split <;> simp_all [eq_comm]
      · next h =>
        simp only [planeFind, ih]
        by_cases hb : b = a
        · subst hb; simp [h]
        · simp [hb]

theorem mem_planeErase {p : List (Nat × α)} {a : Nat} {c : Nat × α} (h : c ∈ planeErase p a) :
    c ∈ p ∧ c.1 ≠ a := by
  induction p with
  | nil => simp [planeErase] at h
  | cons d ds ih =>
    simp only [planeErase] at h
    split at h
    · exact ⟨List.mem_cons_of_mem _ (ih h).1, (ih h).2⟩
    · rcases List.mem_cons.mp h with rfl | h
      · exact ⟨List.mem_cons_self, ‹_›⟩
      · exact ⟨List.mem_cons_of_mem _ (ih h).1, (ih h).2⟩

theorem mem_planeSet {p : List (Nat × α)} {a : Nat} {v : α} {c : Nat × α}
    (h : c ∈ planeSet p a v) : c = (a, v) ∨ c ∈ p := by
  induction p with
  | nil => simpa [planeSet] using h
  | cons d ds ih =>
    simp only [planeSet] at h
    split at h
    · simpa using h
    · split at h
      · rcases List.mem_cons.mp h with rfl | h
        · exact .inl rfl
        · exact .inr (List.mem_cons_of_mem _ h)
      · rcases List.mem_cons.mp h with rfl | h
        · exact .inr List.mem_cons_self
        · exact (ih h).imp_right (List.mem_cons_of_mem _)

theorem planeSorted_planeErase {p : List (Nat × α)} (h : planeSorted p) (a : Nat) :
    planeSorted (planeErase p a) := by
  induction p with
  | nil => exact h
  | cons c cs ih =>
    obtain ⟨hc, hcs⟩ := List.pairwise_cons.mp h
    simp only [planeErase]
    split
    · exact ih hcs
    · exact List.pairwise_cons.mpr ⟨fun d hd => hc d (mem_planeErase hd).1, ih hcs⟩

theorem planeSorted_planeSet {p : List (Nat × α)} (h : planeSorted p) (a : Nat) (v : α) :
    planeSorted (planeSet p a v) := by
  induction p with
  | nil => simp [planeSet]
  | cons c cs ih =>
    obtain ⟨hc, hcs⟩ := List.pairwise_cons.mp h
    simp only [planeSet]
    split
    · next hlt =>
      refine List.pairwise_cons.mpr ⟨fun d hd => ?_, h⟩
      rcases List.mem_cons.mp hd with rfl | hd
      · exact hlt
      · exact Nat.lt_trans hlt (hc d hd)
    · split
      · next heq => exact List.pairwise_cons.mpr ⟨fun d hd => heq ▸ hc d hd, hcs⟩
      · refine List.pairwise_cons.mpr ⟨fun d hd => ?_, ih hcs⟩
        rcases mem_planeSet hd with rfl | hd
        · show c.1 < a; omega
        · exact hc d hd

theorem planeFind_eq_some_mem {p : List (Nat × α)} {a : Nat} {v : α}
    (h : planeFind p a = some v) : (a, v) ∈ p := by
  induction p with
  | nil => simp [planeFind] at h
  | cons c cs ih =>
    simp only [planeFind] at h
    split at h
    · next hc =>
      obtain rfl := Option.some.inj h
      subst hc
      exact List.mem_cons_self
    · exact List.mem_cons_of_mem _ (ih h)

theorem planeFind_of_mem {p : List (Nat × α)} (hs : planeSorted p) {c : Nat × α} (h : c ∈ p) :
    planeFind p c.1 = some c.2 := by
  induction p with
  | nil => simp at h
  | cons d ds ih =>
    obtain ⟨hd, hds⟩ := List.pairwise_cons.mp hs
    rcases List.mem_cons.mp h with rfl | h
    · simp [planeFind]
    · have : d.1 ≠ c.1 := Nat.ne_of_lt (hd c h)
      simp [planeFind, this, ih hds h]

/-- A sorted plane is determined by what is found in it. -/
theorem plane_ext {p q : List (Nat × α)} (hp : planeSorted p) (hq : planeSorted q)
    (h : ∀ a, planeFind p a = planeFind q a) : p = q := by
  have hsub : ∀ {p q : List (Nat × α)}, planeSorted p → (∀ a, planeFind p a = planeFind q a) →
      ∀ c ∈ p, c ∈ q := fun hp h c hc =>
    planeFind_eq_some_mem ((h c.1).symm.trans (planeFind_of_mem hp hc))
  exact List.Pairwise.eq_of_mem_iff hp hq
    (fun c => ⟨hsub hp h c, hsub hq (fun a => (h a).symm) c⟩)

end Plane

/-! Reads after writes -/

/-- R43, R45: what a data read gives after a data write. -/
theorem Memory.getValue_setData (m : Memory) (a b : Int) (v : Int) :
    (m.setData a v).getValue b = if inRange a ∧ b = a then v else m.getValue b := by
  unfold Memory.setData Memory.getValue
  by_cases ha : inRange a = true
  · by_cases hb : inRange b = true
    · have hab : b.toNat = a.toNat ↔ b = a := by
        rw [inRange_iff] at ha hb; omega
      simp only [ha, hb, if_true, true_and]
      split
      · next hv =>
        rw [planeFind_planeErase]
        by_cases h : b = a
        · simp [h, hv]
        · simp [h, hab]
      · rw [planeFind_planeSet]
        by_cases h : b = a
        · simp [h]
        · simp [h, hab]
    · have : b ≠ a := fun h => hb (h ▸ ha)
      simp [ha, hb, this]
  · simp [ha]

/-- R44, R46: what an instruction read gives after an instruction write. -/
theorem Memory.getInstruction_setInstruction (m : Memory) (a b : Int) (t : Text) :
    (m.setInstruction a t).getInstruction b
      = if inRange a ∧ b = a then t else m.getInstruction b := by
  unfold Memory.setInstruction Memory.getInstruction
  by_cases ha : inRange a = true
  · by_cases hb : inRange b = true
    · have hab : b.toNat = a.toNat ↔ b = a := by
        rw [inRange_iff] at ha hb; omega
      simp only [ha, hb, if_true, true_and, planeFind_planeSet]
      by_cases h : b = a
      · simp [h]
      · simp [h, hab]
    · have : b ≠ a := fun h => hb (h ▸ ha)
      simp [ha, hb, this]
  · simp [ha]

/-- R46: the presence flag after an instruction write. -/
theorem Memory.present_setInstruction (m : Memory) (a b : Int) (t : Text) :
    (m.setInstruction a t).present b = if inRange a ∧ b = a then true else m.present b := by
  unfold Memory.setInstruction Memory.present
  by_cases ha : inRange a = true
  · by_cases hb : inRange b = true
    · have hab : b.toNat = a.toNat ↔ b = a := by
        rw [inRange_iff] at ha hb; omega
      simp only [ha, hb, if_true, true_and, planeFind_planeSet, Bool.true_and]
      by_cases h : b = a
      · simp [h]
      · simp [h, hab]
    · have : b ≠ a := fun h => hb (h ▸ ha)
      simp [ha, hb, this]
  · simp [ha]

/-! The two planes do not touch each other (R40, R50) -/

@[simp] theorem Memory.setData_instr (m : Memory) (a : Int) (v : Int) :
    (m.setData a v).instr = m.instr := by
  unfold Memory.setData; split <;> rfl

@[simp] theorem Memory.setInstruction_data (m : Memory) (a : Int) (t : Text) :
    (m.setInstruction a t).data = m.data := by
  unfold Memory.setInstruction; split <;> rfl

@[simp] theorem Memory.getInstruction_setData (m : Memory) (a b : Int) (v : Int) :
    (m.setData a v).getInstruction b = m.getInstruction b := by
  simp [Memory.getInstruction]

@[simp] theorem Memory.present_setData (m : Memory) (a b : Int) (v : Int) :
    (m.setData a v).present b = m.present b := by
  simp [Memory.present]

@[simp] theorem Memory.getValue_setInstruction (m : Memory) (a b : Int) (t : Text) :
    (m.setInstruction a t).getValue b = m.getValue b := by
  simp [Memory.getValue]

/-! Out of range, and the empty memory -/

theorem Memory.setData_of_not_inRange (m : Memory) {a : Int} (h : inRange a = false) (v : Int) :
    m.setData a v = m := by
  simp [Memory.setData, h]

theorem Memory.setInstruction_of_not_inRange (m : Memory) {a : Int} (h : inRange a = false)
    (t : Text) : m.setInstruction a t = m := by
  simp [Memory.setInstruction, h]

@[simp] theorem Memory.getValue_empty (a : Int) : Memory.empty.getValue a = 0 := by
  simp [Memory.getValue, Memory.empty, planeFind, Memory.unlistedValue]

@[simp] theorem Memory.getInstruction_empty (a : Int) : Memory.empty.getInstruction a = [] := by
  simp [Memory.getInstruction, Memory.empty, planeFind, Memory.unlistedText]

@[simp] theorem Memory.present_empty (a : Int) : Memory.empty.present a = false := by
  simp [Memory.present, Memory.empty, planeFind]

/-- R33, R44: the presence flag cannot be seen through `getInstruction`. -/
theorem Memory.getInstruction_of_absent {m : Memory} {a : Int} (h : m.present a = false) :
    m.getInstruction a = [] := by
  unfold Memory.present at h
  unfold Memory.getInstruction
  split
  · next ha =>
    have hn : planeFind m.instr a.toNat = none := by simpa [ha] using h
    simp [hn, Memory.unlistedText]
  · rfl

/-! The canonical form -/

theorem Memory.wf_empty : Memory.empty.wf := by simp [Memory.wf, Memory.empty]

theorem Memory.wf_setData {m : Memory} (h : m.wf) (a : Int) (v : Int) : (m.setData a v).wf := by
  obtain ⟨h1, h2, h3, h4⟩ := h
  unfold Memory.setData
  split
  · next ha =>
    rw [inRange_iff] at ha
    split
    · exact ⟨planeSorted_planeErase h1 _, fun c hc => h2 c (mem_planeErase hc).1, h3, h4⟩
    · next hv =>
      refine ⟨planeSorted_planeSet h1 _ _, fun c hc => ?_, h3, h4⟩
      rcases mem_planeSet hc with rfl | hc
      · exact ⟨by show a.toNat < _; omega, hv⟩
      · exact h2 c hc
  · exact ⟨h1, h2, h3, h4⟩

theorem Memory.wf_setInstruction {m : Memory} (h : m.wf) (a : Int) (t : Text) :
    (m.setInstruction a t).wf := by
  obtain ⟨h1, h2, h3, h4⟩ := h
  unfold Memory.setInstruction
  split
  · next ha =>
    rw [inRange_iff] at ha
    refine ⟨h1, h2, planeSorted_planeSet h3 _ _, fun c hc => ?_⟩
    rcases mem_planeSet hc with rfl | hc
    · show a.toNat < _; omega
    · exact h4 c hc
  · exact ⟨h1, h2, h3, h4⟩

theorem Memory.wf_clear (m : Memory) : m.clear.wf := Memory.wf_empty

theorem Memory.wf_loadInstructions {m : Memory} (h : m.wf) (ps : List (Int × Text)) :
    (loadInstructions ps m).wf := by
  induction ps generalizing m with
  | nil => exact h
  | cons p ps ih => exact ih (Memory.wf_setInstruction h p.1 p.2)

theorem Memory.wf_loadData {m : Memory} (h : m.wf) (ps : List (Int × Int)) :
    (loadData ps m).wf := by
  induction ps generalizing m with
  | nil => exact h
  | cons p ps ih => exact ih (Memory.wf_setData h p.1 p.2)

/-- Two canonical memories that read the same everywhere are the same data. -/
theorem Memory.ext_of_wf {m n : Memory} (hm : m.wf) (hn : n.wf)
    (hv : ∀ a, m.getValue a = n.getValue a) (hi : ∀ a, m.getInstruction a = n.getInstruction a)
    (hp : ∀ a, m.present a = n.present a) : m = n := by
  obtain ⟨md, mi⟩ := m
  obtain ⟨nd, ni⟩ := n
  obtain ⟨hm1, hm2, hm3, hm4⟩ := hm
  obtain ⟨hn1, hn2, hn3, hn4⟩ := hn
  simp only at hm1 hm2 hm3 hm4 hn1 hn2 hn3 hn4
  have hlow : ∀ {α : Type} {p : List (Nat × α)}, (∀ c ∈ p, c.1 < Config.memSize) →
      ∀ k, Config.memSize ≤ k → planeFind p k = none := fun hp k hk =>
    Option.eq_none_iff_forall_ne_some.mpr
      (fun v hv => absurd (hp _ (planeFind_eq_some_mem hv)) (Nat.not_lt.mpr hk))
  have hd : md = nd := by
    refine plane_ext hm1 hn1 (fun k => ?_)
    by_cases hk : k < Config.memSize
    · have h := hv (k : Int)
      simp only [Memory.getValue, (inRange_natCast k).mpr hk, if_true, Int.toNat_natCast] at h
      rcases hx : planeFind md k with _ | x <;> rcases hy : planeFind nd k with _ | y
      · rfl
      · rw [hx, hy] at h
        exact absurd h.symm (hn2 _ (planeFind_eq_some_mem hy)).2
      · rw [hx, hy] at h
        exact absurd h (hm2 _ (planeFind_eq_some_mem hx)).2
      · simpa [hx, hy] using h
    · rw [hlow (fun c hc => (hm2 c hc).1) k (Nat.not_lt.mp hk),
        hlow (fun c hc => (hn2 c hc).1) k (Nat.not_lt.mp hk)]
  have hin : mi = ni := by
    refine plane_ext hm3 hn3 (fun k => ?_)
    by_cases hk : k < Config.memSize
    · have h := hi (k : Int)
      have h' := hp (k : Int)
      simp only [Memory.getInstruction, Memory.present, (inRange_natCast k).mpr hk, if_true,
        Int.toNat_natCast, Bool.true_and] at h h'
      rcases hx : planeFind mi k with _ | x <;> rcases hy : planeFind ni k with _ | y <;>
        simp_all
    · rw [hlow hm4 k (Nat.not_lt.mp hk), hlow hn4 k (Nat.not_lt.mp hk)]
  rw [hd, hin]

end Sys2Proof.Machine
end

