-- ==== Sys2Proof/Laws/Cycle.lean ====
section
/-! SUPPORT. What a meaning, a cycle and a run can do, said once: the inversion lemma of `exec`, the
two cases of `step`, and the unfolding of the host's loops. -/

namespace Sys2Proof.Machine

/-- Everything an instruction can do (R94): which one it was, and the state it answers. -/
theorem exec_cases {i : Instr} {s t : State} (h : exec i s = .next t) :
    (i = .empty ∧ t = s) ∨
    (i = .hlt ∧ t = s.setHalted.log .programHalted) ∨
    (i = .missingOperand ∧ t = s.raise .missingOperand) ∨
    (∃ r, i = .invalidAddress r ∧ t = s.raise (.invalidAddress r)) ∨
    (∃ a, i = .load a ∧
      t = (s.setAc (s.mem.getValue a)).log (.accumulator (s.mem.getValue a))) ∨
    (∃ a, i = .store a ∧ t = (s.setData a s.ac).log (.memoryWrite a s.ac)) ∨
    (∃ a, i = .add a ∧
      t = (s.setAc (s.ac + s.mem.getValue a)).log (.accumulator (s.ac + s.mem.getValue a))) ∨
    (∃ a, i = .sub a ∧
      t = (s.setAc (s.ac - s.mem.getValue a)).log (.accumulator (s.ac - s.mem.getValue a))) ∨
    (∃ a, i = .unknown a ∧ t = s.raise .unknownOpcode) := by
  cases i <;> cases h <;> simp [aluAdd, aluSub]

/-- R92 as one record. -/
theorem fetch_eq (s : State) :
    fetch s = { s with mar := s.pc, mdr := .txt (s.mem.getInstruction (s.pc : Int)),
                       ir := s.mem.getInstruction (s.pc : Int), pc := s.pc + 1 } := by
  unfold fetch; rfl

/-- The instruction in the slot of the next fetch, spelled out. -/
theorem State.nextInstr_eq (s : State) :
    s.nextInstr = decode (s.mem.getInstruction (s.pc : Int)) := by
  unfold State.nextInstr; rfl

/-- R27: the state Halted in terms of its two causes. -/
theorem State.isHalted_iff (s : State) :
    s.isHalted = true ↔ s.halted = true ∨ Config.memSize ≤ s.pc := by
  simp [State.isHalted]

theorem State.isHalted_eq_false_iff (s : State) :
    s.isHalted = false ↔ s.halted = false ∧ s.pc < Config.memSize := by
  simp [State.isHalted]

theorem State.isRunning_iff (s : State) : s.isRunning = true ↔ s.isHalted = false := by
  simp [State.isRunning]

/-- R91: a closed gate changes nothing. -/
theorem step_of_halted {s : State} (h : s.isHalted = true) : step s = .next s := by
  simp [step, cycle, h]

/-- R90 to R94: an open gate runs the decoded text on the fetched state. -/
theorem step_of_running {s : State} (h : s.isHalted = false) :
    step s = exec s.nextInstr (fetch s) := by
  have hh : s.halted = false := ((s.isHalted_eq_false_iff).mp h).1
  simp [step, cycle, h, decodeExecute, hh, State.nextInstr]

/-- Everything a step can do. -/
theorem step_cases {s t : State} (h : step s = .next t) :
    (s.isHalted = true ∧ t = s) ∨
    (s.isHalted = false ∧ exec s.nextInstr (fetch s) = .next t) := by
  rcases hs : s.isHalted with _ | _
  · exact .inr ⟨rfl, step_of_running hs ▸ h⟩
  · rw [step_of_halted hs] at h
    cases h
    exact .inl ⟨rfl, rfl⟩

/-- The line logged on a fetched state is prefixed with the address it was fetched from (R95). -/
theorem fetch_log (s : State) (m : Message) :
    ((fetch s).log m).trace = s.trace ++ [s.entry m] := by
  simp [State.entry]

/-! The host's loops (R91, R148) -/

theorem advance_of_step {s t : State} (h : step s = .next t) : advance s = t := by
  simp [advance, h]

theorem runCycle_of_halted {s : State} (h : s.isHalted = true) : runCycle s = (s, false) := by
  simp [runCycle, h]

theorem runCycle_of_running {s t : State} (h : s.isHalted = false) (hs : step s = .next t) :
    runCycle s = (t, !t.halted) := by
  simp [runCycle, h, advance_of_step hs]

theorem runLoop_of_halted {s : State} (h : s.isHalted = true) (k : Nat) : runLoop k s = s := by
  cases k <;> simp [runLoop, runCycle_of_halted h]

theorem cyclesIn_of_halted {s : State} (h : s.isHalted = true) (k : Nat) : cyclesIn k s = 0 := by
  cases k <;> simp [cyclesIn, h]

/-- One executed cycle of the loop. -/
theorem runLoop_succ_of_running {s t : State} (h : s.isHalted = false) (hs : step s = .next t)
    (k : Nat) : runLoop (k + 1) s = runLoop k t := by
  simp only [runLoop, runCycle_of_running h hs]
  rcases ht : t.halted with _ | _
  · simp
  · simp [runLoop_of_halted ((t.isHalted_iff).mpr (.inl ht))]

theorem cyclesIn_succ_of_running {s t : State} (h : s.isHalted = false) (hs : step s = .next t)
    (k : Nat) : cyclesIn (k + 1) s = 1 + cyclesIn k t := by
  simp [cyclesIn, h, advance_of_step hs]

theorem core_run_zero (s : State) : Host.Core.run core 0 s = .next s := rfl

theorem core_run_succ {s t : State} (hs : step s = .next t) (k : Nat) :
    Host.Core.run core (k + 1) s = Host.Core.run core k t := by
  have h : core.step s = .next t := hs
  simp only [Host.Core.run, h]

/-! Placing the next instruction (log 2) -/

/-- The gate of the placed state is open and its fetch reads the placed text. -/
theorem placeNext_spec (t : Text) (s : State) :
    (placeNext t s).isHalted = false ∧ (fetch (placeNext t s)).ir = t := by
  have hpc : (if Config.memSize ≤ s.pc then 0 else s.pc) < Config.memSize := by
    split
    · exact memSize_pos
    · omega
  refine ⟨(State.isHalted_eq_false_iff _).mpr ⟨rfl, hpc⟩, ?_⟩
  rw [fetch_ir, placeNext_mem, placeNext_pc, Memory.getInstruction_setInstruction,
    if_pos ⟨(inRange_natCast _).mpr hpc, rfl⟩]

/-- The very next step of `withFetchWord` runs the placed instruction. -/
theorem step_withFetchWord (s : State) (nbits w : Nat) :
    step (s.withFetchWord nbits w)
      = exec (decode (textOfTableWord nbits w)) (fetch (s.withFetchWord nbits w)) := by
  obtain ⟨h1, h2⟩ := placeNext_spec (textOfTableWord nbits w) s
  have h := step_of_running h1
  rw [State.nextInstr, ← fetch_ir, h2] at h
  exact h

end Sys2Proof.Machine
end

