-- ==== Sys2Proof/Laws/HostInterface.lean ====
section
/-! SUPPORT. What the assembly-time checks compute, said once without their recursion. -/

namespace Sys2Proof.Machine

theorem assignedAddresses_cons_of_blank {p : Int × Text} (h : blank p.2 = true)
    (ps : List (Int × Text)) : assignedAddresses (p :: ps) = assignedAddresses ps := by
  simp [assignedAddresses, h]

theorem assignedAddresses_cons_of_not_blank {p : Int × Text} (h : blank p.2 = false)
    (ps : List (Int × Text)) : assignedAddresses (p :: ps) = p.1 :: assignedAddresses ps := by
  simp [assignedAddresses, h]

/-- R146: after the addresses `pre`, which `seen` holds in any order, the check lists what stands
behind `pre` at its second and later occurrences. -/
theorem duplicatesFrom_eq (ps : List (Int × Text)) (pre seen : List Int)
    (h : ∀ a, a ∈ seen ↔ a ∈ pre) :
    duplicatesFrom seen ps =
      (((assignedAddresses ps).zipIdx pre.length).filter
        (fun q => ((pre ++ assignedAddresses ps).take q.2).contains q.1)).map Prod.fst := by
  induction ps generalizing pre seen with
  | nil => rfl
  | cons p ps ih =>
    rw [duplicatesFrom]
    rcases hb : blank p.2 with _ | _
    · have tail := fun seen' h' => ih (pre ++ [p.1]) seen' h'
      rw [assignedAddresses_cons_of_not_blank hb, List.zipIdx_cons, List.filter_cons,
        List.take_left' rfl]
      simp only [List.append_assoc, List.cons_append, List.nil_append, List.length_append,
        List.length_cons, List.length_nil, Nat.zero_add] at tail
      by_cases hp : p.1 ∈ pre
      · rw [if_neg (by simp), if_pos (by simpa using (h p.1).mpr hp), if_pos (by simpa using hp),
          List.map_cons, ← tail seen fun a => by
            rw [h, List.mem_append, List.mem_singleton]
            exact ⟨.inl, fun o => o.elim id (· ▸ hp)⟩]
      · rw [if_neg (by simp), if_neg (by simpa using fun o => hp ((h p.1).mp o)),
          if_neg (by simpa using hp),
          ← tail (p.1 :: seen) fun a => by
            rw [List.mem_cons, List.mem_append, List.mem_singleton, h, or_comm]]
    · rw [assignedAddresses_cons_of_blank hb, if_pos rfl, ih pre seen h]

/-- The list of the whole check. -/
theorem duplicatesFrom_nil (ps : List (Int × Text)) :
    duplicatesFrom [] ps = repeatedAddresses (assignedAddresses ps) :=
  duplicatesFrom_eq ps [] [] (fun _ => Iff.rfl)

end Sys2Proof.Machine
end

