-- ==== Sys2Proof/Laws/PerInstr.lean ====
section
/-! SUPPORT. Statements about every instruction as syntax, one lemma per constructor. Family
EncodedTokens: the text of an instruction has as many tokens as its format gives it (R64). -/

namespace Sys2Proof.Laws.EncodedTokens

/-- How many tokens the format of an instruction has (R64, R72). -/
def tokenCount : Instr → Nat
  | .empty => 0
  | .hlt => 1
  | .missingOperand => 1
  | .invalidAddress _ => 2
  | .load _ => 2
  | .store _ => 2
  | .add _ => 2
  | .sub _ => 2
  | .unknown _ => 2

def Statement (i : Instr) : Prop := (tokens (encode i)).length = tokenCount i

/-- The canonical T1 spelling cuts into the mnemonic and the numeral (R62, R75). -/
theorem tokens_spellT1 {op : Text} (hne : op ≠ []) (hop : op.all (fun c => !isSpace c) = true) (a : Int) :
    tokens (spellT1 op a) = [op, dec a] := by
  have hop' : ∀ c ∈ op, isSpace c = false := by simpa using hop
  obtain ⟨h1, h2⟩ := token_of_intParse (intParse_dec a)
  have h3 := tokens_append_token h1 h2 (rest := []) rfl
  rw [List.append_nil] at h3
  have hs : isSpace ' ' = true := by decide
  rw [spellT1, tokens_append_token hne hop' (by simp [startsToken, hs]), tokens_cons_space hs, h3, tokens]

theorem empty : Statement .empty := by unfold Statement; decide
theorem hlt : Statement .hlt := by unfold Statement; decide
theorem missingOperand : Statement .missingOperand := by unfold Statement; decide
theorem invalidAddress (r : Reason) : Statement (.invalidAddress r) := by
  unfold Statement
  cases r <;> decide

theorem load (a : Int) : Statement (.load a) := by
  rw [Statement, encode, tokens_spellT1 (by decide) (by decide), tokenCount]; simp

theorem store (a : Int) : Statement (.store a) := by
  rw [Statement, encode, tokens_spellT1 (by decide) (by decide), tokenCount]; simp

theorem add (a : Int) : Statement (.add a) := by
  rw [Statement, encode, tokens_spellT1 (by decide) (by decide), tokenCount]; simp

theorem sub (a : Int) : Statement (.sub a) := by
  rw [Statement, encode, tokens_spellT1 (by decide) (by decide), tokenCount]; simp

theorem unknown (a : Int) : Statement (.unknown a) := by
  rw [Statement, encode, tokens_spellT1 (by decide) (by decide), tokenCount]; simp

end Sys2Proof.Laws.EncodedTokens
end

