-- ==== Sys2Proof/Tests/Slice0.lean ====
section
/-! SUPPORT. The model's own tests, each expected value taken from spec/ (the source named in the
comment), and for every statement with hypotheses a concrete witness that meets them. -/

namespace Sys2Proof.Tests

open Sys2Proof Sys2Proof.Machine

/-! WellFormed refuses each ill-formed term (R77) -/

theorem test_wf_refuses_out_of_range :
    [Instr.load 256, .store 256, .add (-1), .sub (-1), .unknown 256].all (fun i => !i.wf) = true := by
  decide

theorem test_wf_accepts_the_bounds :
    [Instr.load 0, .store 255, .add 0, .sub 255, .unknown 255, .hlt, .empty].all Instr.wf = true := by
  decide

/-! Decoding: every constructor from a text written out character by character (95_test_vectors.md
2.1, vector numbers in the names) -/

theorem test_decode_E2_empty : decode [' ', ' ', ' '] = .empty := by decide
theorem test_decode_E5_hlt : decode ['h', 'l', 't'] = .hlt := by decide
theorem test_decode_E25_missing : decode ['L', 'O', 'A', 'D'] = .missingOperand := by decide
theorem test_decode_E19_invalid :
    decode ['A', 'D', 'D', ' ', 'x', '1'] = .invalidAddress .invalidInteger := by decide
theorem test_decode_E16_range :
    decode ['S', 'T', 'O', 'R', 'E', ' ', '2', '5', '6'] = .invalidAddress .outOfRange := by decide
theorem test_decode_E11_load : decode ['L', 'o', 'A', 'd', '\t', '2'] = .load 2 := by decide
theorem test_decode_E15_store :
    decode ['S', 'T', 'O', 'R', 'E', ' ', '2', '5', '5'] = .store 255 := by decide
theorem test_decode_E34_add : decode ['A', 'D', 'D', ' ', '1', ' ', '2'] = .add 1 := by decide
theorem test_decode_E35_sub :
    decode ['S', 'U', 'B', ' ', '3', ' ', 'j', 'u', 'n', 'k'] = .sub 3 := by decide
theorem test_decode_E33_unknown : decode ['5', ' ', '5'] = .unknown 5 := by decide
/-- E39: UPPER is ASCII only. -/
theorem test_decode_E39_not_ascii :
    decode ['S', 'T', Char.ofNat 0xD6, 'R', 'E', ' ', '1'] = .unknown 1 := by decide
/-- E18: the numeral is exact before the range check. -/
theorem test_decode_E18_long :
    decode "ADD 99999999999999999999".toList = .invalidAddress .outOfRange := by decide

/-- The numbers of `HLT` and `ADD 1` by the layout of log 1, and the empty text. -/
theorem test_decodeTableWord :
    decodeTableWord 24 0x544C48 = some .hlt ∧ decodeTableWord 40 0x3120444441 = some (.add 1) ∧
    decodeTableWord 0 0 = some .empty := by decide

/-- V5, V10, V12, V13, V16 of 95_test_vectors.md 2.2. -/
theorem test_validators :
    validateAddress "-0".toList 256 = .ok 0 ∧
    validateAddress "1 2".toList 256 = .error .invalidInteger ∧
    validateAddress "4".toList 4 = .error .outOfRange ∧
    validateAddress "-abc".toList 256 = .error .invalidInteger ∧
    validateDataValue "12345678901234567890".toList = .ok 12345678901234567890 := by decide

/-! One cycle each, from a small state (95_test_vectors.md 2.4 to 2.8) -/

/-- A Running machine with one text at `pc`, some data, and an accumulator. -/
def machine (pc : Nat) (t : Text) (ac : Int) (data : List (Int × Int)) : State :=
  { loadProgram { instructions := [((pc : Int), t)], dataValues := data } State.reset with
    pc := pc, ac := ac }

/-- The same with a second text in the next slot. -/
def machine2 (t u : Text) (ac : Int) : State :=
  { loadProgram { instructions := [(0, t), (1, u)], dataValues := [] } State.reset with ac := ac }

/-- A machine whose flag is set. -/
def haltedMachine : State := { machine 2 "HLT".toList 7 [] with halted := true }

/-- A machine stopped by the implicit halt. -/
def endedMachine : State := { State.reset with pc := 256 }

/-- L1, R101. -/
theorem test_load :
    (advance (machine 0 "LOAD 2".toList 0 [(2, 5)])).ac = 5 ∧
    (advance (machine 0 "LOAD 2".toList 0 [(2, 5)])).traceLines = ["PC=0 IR=LOAD 2 AC=5".toList] := by
  decide

/-- Y7: every register the fetch writes. -/
theorem test_fetch_registers :
    let t := advance { machine 7 "LOAD 1".toList 9 [(1, 3)] with mar := 2, ir := ['x'] }
    t.pc = 8 ∧ t.mar = 7 ∧ t.ir = "LOAD 1".toList ∧ t.mdr = .txt "LOAD 1".toList ∧ t.ac = 3 := by
  decide

/-- L8: a negative value, and the instruction under the store stays. -/
theorem test_store :
    let t := advance (machine 0 "STORE 0".toList (-3) [])
    t.mem.getValue 0 = -3 ∧ t.mem.getInstruction 0 = "STORE 0".toList ∧
      t.traceLines = ["PC=0 IR=STORE 0 Memory[0]=-3".toList] := by decide

/-- L10: storing 0 over 9. -/
theorem test_store_zero :
    (advance (machine 0 "STORE 255".toList 0 [(255, 9)])).mem.data = [] := by decide

/-- A7: exact beyond 2^53. -/
theorem test_add_exact :
    (advance (machine 0 "ADD 1".toList 9007199254740992 [(1, 1)])).ac = 9007199254740993 := by decide

/-- A8: AC minus memory, and the sign in the line. -/
theorem test_sub_order :
    let t := advance (machine 0 "SUB 1".toList 3 [(1, 10)])
    t.ac = -7 ∧ t.traceLines = ["PC=0 IR=SUB 1 AC=-7".toList] := by decide

/-- Q3: HLT with other tokens, in lower case. -/
theorem test_hlt :
    let r := runCycle (machine 0 "hlt 99 x".toList 0 [])
    r.2 = false ∧ r.1.halted = true ∧ r.1.pc = 1 ∧
      r.1.traceLines = ["PC=0 IR=hlt 99 x Program Halted.".toList] := by decide

/-- Y6: a blank slot. -/
theorem test_empty :
    let r := runCycle (machine 0 "   ".toList 4 [])
    r.2 = true ∧ r.1.pc = 1 ∧ r.1.ir = "   ".toList ∧ r.1.trace = [] ∧ r.1.ac = 4 := by decide

/-- X4, scenario D. -/
theorem test_unknown :
    let r := runCycle (machine 0 "FOO 1".toList 6 [])
    r.2 = true ∧ r.1.ac = 6 ∧
      r.1.traceLines = ["PC=0 IR=FOO 1 Error: Unknown instruction".toList] := by decide

/-- A14, scenario E. -/
theorem test_missing_operand :
    (advance (machine 0 "ADD".toList 6 [])).traceLines =
      ["PC=0 IR=ADD Error: Missing operand".toList] := by decide

/-- L12: the kind and the reason of an invalid address. -/
theorem test_invalid_address :
    (advance (machine 0 "STORE -1".toList 7 [])).trace =
      [{ pc := 0, ir := "STORE -1".toList, msg := .error (.invalidAddress .outOfRange) }] := by decide

/-- Y4, Y5: a closed gate. -/
theorem test_gate :
    runCycle haltedMachine = (haltedMachine, false) ∧ runCycle endedMachine = (endedMachine, false) :=
  ⟨runCycle_of_halted (by decide), runCycle_of_halted (by decide)⟩

/-- H2, H3: out-of-range pairs dropped, later pair wins. -/
theorem test_load_program :
    let s := loadProgram
      { instructions := [(300, "HLT".toList), (-1, "HLT".toList), (0, "LOAD 1".toList), (0, "HLT".toList)],
        dataValues := [(256, 7), (5, 7)] } State.reset
    s.mem.instr = [(0, "HLT".toList)] ∧ s.mem.data = [(5, 7)] := by decide

/-- K3, K4, K6, K7, K8 of 95_test_vectors.md 2.9. -/
theorem test_duplicates :
    duplicatesFrom [] [(0, "LOAD 1".toList), (0, "ADD 2".toList)] = [0] ∧
    duplicatesFrom [] [(0, []), (0, "ADD 2".toList)] = [] ∧
    duplicatesFrom [] [(0, "A 1".toList), (0, "  ".toList), (0, "B 1".toList)] = [0] ∧
    duplicatesFrom [] [(3, ['x']), (3, ['y']), (3, ['z'])] = [3, 3] ∧
    duplicatesFrom [] [(1, ['a']), (2, ['b']), (1, ['c']), (2, ['d'])] = [1, 2] := by decide

/-- The placed instruction is what the next step runs, from reset and from a Halted machine. -/
theorem test_withFetchWord :
    (advance (State.reset.withFetchWord 24 0x544C48)).halted = true ∧
    (advance (haltedMachine.withFetchWord 40 0x3120444441)).ir = "ADD 1".toList := by decide

/-! Witnesses: for each statement with hypotheses, concrete values that meet them -/

theorem witness_ResetStateValues :
    State.reset = construct ∧ State.reset = resetMachine haltedMachine := ⟨rfl, rfl⟩

theorem witness_OnlyResetUndoes :
    HostOp.readTrace ≠ .reset ∧ HostOp.readTrace ≠ .construct ∧ haltedMachine.halted = true ∧
    haltedMachine.mem.present 2 = true ∧ HostOp.readTrace ≠ .runCycle ∧
    HostOp.readTrace ≠ .runProgram := by decide

/-- The boundary values of the memory statements: the first and last slot, and the addresses beside
them. -/
theorem witness_DataPlaneWrite_and_InstructionPlaneWrite :
    (0 ≤ (0 : Int) ∧ (0 : Int) < Config.memSize) ∧ (0 ≤ (255 : Int) ∧ (255 : Int) < Config.memSize) ∧
    ¬(0 ≤ (256 : Int) ∧ (256 : Int) < Config.memSize) ∧ ¬(0 ≤ (-1 : Int) ∧ (-1 : Int) < Config.memSize) ∧
    (1 : Int) ≠ 0 := by decide

theorem witness_MemoryBoundaryPolicy :
    ((-1 : Int) < 0 ∨ (Config.memSize : Int) ≤ -1) ∧ ((256 : Int) < 0 ∨ (Config.memSize : Int) ≤ 256) := by
  decide

theorem witness_ClearRestoresDefaults :
    (0 ≤ (0 : Int) ∧ (0 : Int) < Config.memSize) ∧ (0 ≤ (255 : Int) ∧ (255 : Int) < Config.memSize) := by
  decide

theorem witness_ValidatorsCheckParseThenRange :
    intParse "x1".toList = none ∧ intParse "256".toList = some 256 ∧
    ((256 : Int) < 0 ∨ (256 : Int) ≤ 256) ∧ intParse "-1".toList = some (-1) ∧
    intParse "255".toList = some 255 ∧ (0 ≤ (255 : Int) ∧ (255 : Int) < 256) := by decide

theorem witness_TokensAreTheMaximalRuns :
    properPieces [' '] [(['a'], ['\t', ' ']), (['b', 'c'], [])] ∧
    spread [' '] [(['a'], ['\t', ' ']), (['b', 'c'], [])] = [' ', 'a', '\t', ' ', 'b', 'c'] := by
  have h : isSpace 'a' = false ∧ isSpace 'b' = false ∧ isSpace 'c' = false := by decide
  refine ⟨⟨by decide, ?_, by simp⟩, rfl⟩
  simp [isToken, h.1, h.2.1, h.2.2, show blank ['\t', ' '] = true from by decide]

theorem witness_DecIsCanonical : (0 < (1 : Int)) ∧ ((-1 : Int) < 0) := by decide

theorem witness_DecodeChecksInOrder :
    blank [' '] = true ∧ blank "hlt x".toList = false ∧
    tokens "hlt x".toList = ["hlt".toList, ['x']] ∧ upper "hlt".toList = "HLT".toList ∧
    tokens "FOO".toList = ["FOO".toList] ∧ upper "FOO".toList ≠ "HLT".toList ∧
    tokens "Load 7 z".toList = ["Load".toList, ['7'], ['z']] ∧ upper "Load".toList = "LOAD".toList ∧
    validateAddress ['7'] Config.addrLimit = .ok 7 ∧
    validateAddress ['z'] Config.addrLimit = .error .invalidInteger ∧
    upper "store".toList = "STORE".toList ∧ upper "aDD".toList = "ADD".toList ∧
    upper "sub".toList = "SUB".toList ∧
    upper "FOO".toList ∉ ["LOAD".toList, "STORE".toList, "ADD".toList, "SUB".toList] := by decide

theorem witness_DecodedValuesAreTheWellFormedOnes :
    (decode "LOAD 255".toList).address = some 255 ∧ (Instr.load 255).address = some 255 ∧
    (0 ≤ (255 : Int) ∧ (255 : Int) < Config.addrLimit) := by decide

theorem witness_DecodeOfEncode :
    (Instr.load 0).wf = true ∧ (Instr.unknown 255).wf = true ∧ Instr.hlt.wf = true := by decide

/-- A Running machine at the first and at the last slot: FetchEffect,
StepRunsTheDecodedInstruction, GateOfRunCycle, CycleChangesInTotal, FetchNeverSeesAStore. -/
theorem witness_running :
    (machine 0 "LOAD 2".toList 1 []).halted = false ∧ (machine 0 "LOAD 2".toList 1 []).pc < Config.memSize ∧
    (machine 255 "LOAD 2".toList 1 []).halted = false ∧
    (machine 255 "LOAD 2".toList 1 []).pc < Config.memSize := by decide

/-- Both causes of Halted: GateOfRunCycle, HaltedIsTerminal. -/
theorem witness_halted :
    haltedMachine.halted = true ∧ endedMachine.halted = false ∧ Config.memSize ≤ endedMachine.pc ∧
    haltedMachine.isHalted = true ∧ endedMachine.isHalted = true ∧
    HostOp.runCycle ≠ .reset ∧ HostOp.runCycle ≠ .construct := by decide

theorem witness_RunCycleAnswer :
    let s := machine 255 "STORE 255".toList 6 []
    s.halted = false ∧ s.pc + 1 = Config.memSize ∧ decode (s.mem.getInstruction s.pc) ≠ .hlt := by decide

theorem witness_EmptyCycle :
    let s := machine 3 [] 1 []
    let u : State := { s with pc := 4 }
    s.halted = false ∧ s.pc < Config.memSize ∧ s.mem.present s.pc = true ∧
    blank (s.mem.getInstruction s.pc) = true ∧ u.mem.present u.pc = false := by decide

theorem witness_FrameOfFormsThatStoreNothing :
    (∀ a, Instr.add 1 ≠ .store a) ∧
    ∃ t, exec (.add 1) (machine 0 "ADD 1".toList 2 [(1, 3)]) = .next t ∧ t.ac = 5 :=
  ⟨by simp, _, rfl, by decide⟩

theorem witness_FrameOfStore :
    ∃ t, exec (.store 1) (machine 0 "STORE 1".toList 2 []) = .next t ∧ t.mem.getValue 1 = 2 :=
  ⟨_, rfl, by decide⟩

theorem witness_InstructionTextsRun :
    tokens "hlt".toList = ["hlt".toList] ∧ upper "hlt".toList = "HLT".toList ∧
    tokens ((machine 0 "load 02 z".toList 1 []).mem.getInstruction 0)
      = ["load".toList, ['0', '2'], ['z']] ∧
    validateAddress ['0', '2'] Config.addrLimit = .ok 2 ∧ upper "load".toList = "LOAD".toList ∧
    tokens "STORE 2".toList = ["STORE".toList, ['2']] ∧ tokens "ADD 2".toList = ["ADD".toList, ['2']] ∧
    tokens "SUB 2".toList = ["SUB".toList, ['2']] := by decide

theorem witness_StoreIsReadByTheNextCycle :
    let s := fun u => machine2 "STORE 9".toList u 4
    (s "LOAD 9".toList).halted = false ∧ (s "LOAD 9".toList).pc + 1 < Config.memSize ∧
    decode ((s "LOAD 9".toList).mem.getInstruction 0) = .store 9 ∧
    decode ((s "LOAD 9".toList).mem.getInstruction 1) = .load 9 ∧
    decode ((s "ADD 9".toList).mem.getInstruction 1) = .add 9 ∧
    decode ((s "SUB 9".toList).mem.getInstruction 1) = .sub 9 := by decide

theorem witness_ErrorCycleIsLocal :
    errorOf (decode "LOAD".toList) = some .missingOperand ∧
    errorOf (decode "LOAD 256".toList) = some (.invalidAddress .outOfRange) ∧
    errorOf (decode "LOAD x".toList) = some (.invalidAddress .invalidInteger) ∧
    errorOf (decode ((machine 0 "FOO 1".toList 6 []).mem.getInstruction 0)) = some .unknownOpcode := by
  decide

/-- Both ways of becoming Halted: by HLT in slot 0, and by the last slot without HLT. -/
theorem witness_NothingIsFatal :
    (machine 0 "HLT".toList 0 []).isRunning = true ∧
    step (machine 0 "HLT".toList 0 []) = .next (advance (machine 0 "HLT".toList 0 [])) ∧
    (advance (machine 0 "HLT".toList 0 [])).isHalted = true ∧
    (machine 255 [] 0 []).isRunning = true ∧ (advance (machine 255 [] 0 [])).isHalted = true ∧
    (advance (machine 255 [] 0 [])).halted = false := by
  refine ⟨by decide, rfl, by decide, by decide, by decide, by decide⟩

theorem witness_ControlIsIndependentOfData :
    (machine 0 "STORE 1".toList 4 [(7, 7)]).SameControl (machine 0 "STORE 1".toList 5 [(8, 9)]) := by
  constructor <;> rfl

theorem witness_TraceAndLatchesAreNotObserved :
    let s := machine 0 "STORE 1".toList 4 []
    let t : State := { s with ir := ['x'], mar := 9, trace := [s.entry .programHalted] }
    s.ac = t.ac ∧ s.pc = t.pc ∧ s.halted = t.halted ∧ s.mem = t.mem ∧ s ≠ t := by
  refine ⟨rfl, rfl, rfl, rfl, fun h => ?_⟩
  have := congrArg State.mar h
  revert this
  decide

theorem witness_LoadProgramEffect :
    (0 ≤ (255 : Int) ∧ (255 : Int) < Config.memSize) ∧ ((256 : Int) < 0 ∨ (Config.memSize : Int) ≤ 256) ∧
    ((-1 : Int) < 0 ∨ (Config.memSize : Int) ≤ -1) ∧
    (∀ q ∈ [((1 : Int), "HLT".toList)], q.1 ≠ 255) ∧ (∀ q ∈ [((1 : Int), (5 : Int))], q.1 ≠ 255) := by
  refine ⟨by decide, by decide, by decide, ?_, ?_⟩ <;> simp

theorem witness_RunProgramEnds :
    runBound State.reset ≤ 257 ∧ haltedMachine.isHalted = true := by decide

/-- A program without HLT: nothing loaded. -/
theorem witness_ImplicitHalt :
    Config.memSize ≤ endedMachine.pc ∧
    ∀ a : Int, decode ((loadProgram { instructions := [], dataValues := [] } construct).mem.getInstruction a)
      ≠ .hlt := by
  refine ⟨by decide, fun a => ?_⟩
  rw [show (loadProgram { instructions := [], dataValues := [] } construct).mem = Memory.empty from rfl,
    Memory.getInstruction_empty]
  decide

theorem witness_FirstHltEndsTheRun :
    let s := loadProgram { instructions := [(1, "HLT".toList)], dataValues := [] } construct
    (1 : Nat) < Config.memSize ∧ decode (s.mem.getInstruction (1 : Nat)) = .hlt ∧
    ∀ a : Nat, a < 1 → decode (s.mem.getInstruction a) ≠ .hlt := by
  refine ⟨by decide, by decide, fun a h => ?_⟩
  obtain rfl : a = 0 := by omega
  decide

/-- Vectors K3 and K8 of spec/95_test_vectors.md. -/
theorem witness_DuplicateCheckVerdict :
    checkDuplicateInstructions [(0, "LOAD 1".toList), (0, "ADD 2".toList)]
      = .error (.duplicateInstructionAddress [0]) ∧
    checkDuplicateInstructions [(1, ['a']), (2, ['b']), (1, ['c']), (2, ['d'])]
      = .error (.duplicateInstructionAddress [1, 2]) ∧
    repeatedAddresses [1, 2, 1, 2] = [1, 2] := by decide

/-- A valid program that logs a line, an unknown opcode among its texts. -/
theorem witness_ValidProgramLogsNoOperandError :
    Program.valid { instructions := [(0, "FOO 1".toList), (1, "HLT".toList)], dataValues := [(255, -1)] }
      = true ∧
    Program.valid { instructions := [(0, "FOO".toList)], dataValues := [] } = false := by decide

/-- A state other than reset that meets the invariant, and its step. -/
theorem witness_StepKeepsInvariant :
    let s : State := { machine 1 "HLT".toList 0 [] with mdr := .txt [] }
    s.Inv ∧ step s = .next (advance s) := by
  refine ⟨⟨by decide, by decide, by decide, fun _ => ⟨rfl, rfl⟩, fun h => ?_, fun h => ?_, by decide⟩, rfl⟩
  · exact absurd h (by decide)
  · exact absurd h (by decide)

theorem operandsValid_reset : State.reset.OperandsValid :=
  ⟨fun _ => by rw [show State.reset.mem = Memory.empty from rfl, Memory.getInstruction_empty]; rfl,
    fun _ h => absurd h List.not_mem_nil⟩

/-- The valid program of `witness_ValidProgramLogsNoOperandError`, and a state to load it into. -/
theorem witness_OperandsValidEstablished :
    Program.valid { instructions := [(0, "FOO 1".toList), (1, "HLT".toList)], dataValues := [(255, -1)] }
      = true ∧ State.reset.OperandsValid := ⟨by decide, operandsValid_reset⟩

/-- A state after a run without an operand error, about to run HLT. -/
theorem witness_StepKeepsOperandsValid :
    let s : State :=
      { machine 1 "HLT".toList 0 [] with trace := [{ pc := 0, ir := "FOO 1".toList, msg := .error .unknownOpcode }] }
    s.OperandsValid ∧ step s = .next (advance s) ∧ (advance s).halted = true := by
  refine ⟨⟨fun a => ?_, by decide⟩, rfl, by decide⟩
  show textValid ((Memory.empty.setInstruction 1 "HLT".toList).getInstruction a) = true
  rw [Memory.getInstruction_setInstruction]
  split
  · decide
  · exact operandsValid_reset.texts a

theorem witness_ReachableStates :
    Reachable 0 construct ∧ Reachable 1 (hostStep .runCycle construct).1 :=
  ⟨.constructed, .hostOp .runCycle .constructed⟩

end Sys2Proof.Tests
end

section
/-! PROOFS. The state after reset (R34) and what holds in every state the host can reach (R35). The
invariant is `State.Inv` beside the count "PC is the number of cycles since the last reset", which is
exact because no meaning writes PC (R132). -/

namespace Sys2Proof.Machine

/-! The reset state -/

/-- R12, R25: MDR_RESET is one of its two allowed values, whichever the open choice is. -/
theorem mdrReset_eq_num_or_txt : Config.mdrReset = .num 0 ∨ Config.mdrReset = .txt [] := by
  rw [Config.mdrReset]
  split
  · exact .inr rfl
  · exact .inl rfl

theorem State.reset_isRunning : State.reset.isRunning = true :=
  (State.isRunning_iff _).mpr ((State.isHalted_eq_false_iff _).mpr ⟨rfl, memSize_pos⟩)

/-- Settles O1: both ways to the state give `State.reset`, and its memory is the empty one. -/
theorem resetStateValues : Obligations.ResetStateValues := by
  refine ⟨memSize_pos, mdrReset_eq_num_or_txt, rfl, fun s t ht => ?_⟩
  obtain rfl : t = State.reset := ht.elim id id
  exact ⟨rfl, rfl, rfl, rfl, rfl, rfl,
    fun a _ _ => ⟨Memory.getValue_empty a, Memory.getInstruction_empty a, Memory.present_empty a⟩,
    rfl, State.reset_isRunning⟩

/-! What a meaning leaves unchanged, and what it can change -/

/-- R177: every instruction answers a next state. -/
theorem exec_answers_next (i : Instr) (s : State) : ∃ t, exec i s = .next t := by
  cases i <;> exact ⟨_, rfl⟩

/-- R177: every step answers a next state. -/
theorem step_answers_next (s : State) : ∃ t, step s = .next t := by
  rcases hs : s.isHalted with _ | _
  · rw [step_of_running hs]
    exact exec_answers_next _ _
  · exact ⟨s, step_of_halted hs⟩

/-- R100, R132: no meaning writes a register of the fetch. -/
theorem exec_keeps_fetch_registers {i : Instr} {s t : State} (h : exec i s = .next t) :
    t.pc = s.pc ∧ t.ir = s.ir ∧ t.mar = s.mar ∧ t.mdr = s.mdr := by
  cases i <;> cases h <;> exact ⟨rfl, rfl, rfl, rfl⟩

/-- R27, R130: only HLT sets the flag, and no meaning clears it. -/
theorem exec_halted_iff {i : Instr} {s t : State} (h : exec i s = .next t) :
    t.halted = true ↔ s.halted = true ∨ i = .hlt := by
  rcases exec_cases h with ⟨rfl, rfl⟩ | ⟨rfl, rfl⟩ | ⟨rfl, rfl⟩ | ⟨_, rfl, rfl⟩ | ⟨_, rfl, rfl⟩ |
    ⟨_, rfl, rfl⟩ | ⟨_, rfl, rfl⟩ | ⟨_, rfl, rfl⟩ | ⟨_, rfl, rfl⟩ <;> simp

/-- R94, R111: the one change a meaning can make to the memory is a data write. -/
theorem exec_mem {i : Instr} {s t : State} (h : exec i s = .next t) :
    t.mem = s.mem ∨ ∃ a v, t.mem = s.mem.setData a v := by
  cases i with
  | store a => cases h; exact .inr ⟨a, s.ac, rfl⟩
  | _ => cases h; exact .inl rfl

theorem exec_keeps_memCanonical {i : Instr} {s t : State} (h : exec i s = .next t)
    (hwf : s.mem.wf) : t.mem.wf := by
  rcases exec_mem h with hm | ⟨a, v, hm⟩
  · exact hm ▸ hwf
  · exact hm ▸ Memory.wf_setData hwf a v

/-- R94, R96: a meaning appends one line; the blank form appends none. -/
theorem exec_trace {i : Instr} {s t : State} (h : exec i s = .next t) :
    t.trace = s.trace ∨ ∃ m, t.trace = (s.log m).trace := by
  cases i with
  | empty => cases h; exact .inl rfl
  | _ => cases h; exact .inr ⟨_, rfl⟩

theorem exec_trace_length_le {i : Instr} {s t : State} (h : exec i s = .next t) :
    t.trace.length ≤ s.trace.length + 1 := by
  rcases exec_trace h with ht | ⟨m, ht⟩ <;> simp [ht]

/-! The invariant -/

theorem State.inv_reset : State.reset.Inv where
  pcRange := Nat.zero_le _
  marRange := memSize_pos
  memCanonical := Memory.wf_empty
  lastFetch h := absurd rfl h
  noFetch _ := ⟨rfl, rfl, rfl, rfl, rfl, rfl⟩
  haltedByHlt h := nomatch h
  traceLength := Nat.le_refl _

/-- R35: an executed cycle establishes the clauses on the fetch registers and on the flag, whatever
they were before, and keeps those on the memory and the trace. -/
theorem State.Inv.executed {s t : State} (hi : s.Inv) (hs : s.isHalted = false)
    (h : exec s.nextInstr (fetch s) = .next t) : t.Inv := by
  obtain ⟨hrun, hlt⟩ := (s.isHalted_eq_false_iff).mp hs
  obtain ⟨hpc, hir, hmar, hmdr⟩ := exec_keeps_fetch_registers h
  have hpc' : t.pc = s.pc + 1 := hpc
  have hmar' : t.mar = s.pc := hmar
  exact {
    pcRange := hpc' ▸ hlt
    marRange := hmar' ▸ hlt
    memCanonical := exec_keeps_memCanonical h hi.memCanonical
    lastFetch := fun _ => ⟨by rw [hmar', hpc'], by rw [hmdr, hir]; rfl⟩
    noFetch := fun h0 => absurd (hpc'.symm.trans h0) (Nat.succ_ne_zero _)
    haltedByHlt := fun ht => by
      rcases (exec_halted_iff h).mp ht with hold | hhlt
      · exact absurd (hrun.symm.trans hold) Bool.false_ne_true
      · exact hir ▸ hhlt
    traceLength := hpc' ▸ (exec_trace_length_le h).trans (Nat.succ_le_succ hi.traceLength) }

theorem step_keeps_inv {s t : State} (hi : s.Inv) (h : step s = .next t) : t.Inv := by
  rcases step_cases h with ⟨_, rfl⟩ | ⟨hs, hexec⟩
  · exact hi
  · exact hi.executed hs hexec

/-! The host's operations -/

/-- An executed cycle moves PC on by one (R92, R132). -/
theorem step_pc_of_running {s t : State} (hs : s.isHalted = false) (h : step s = .next t) :
    t.pc = s.pc + 1 :=
  (exec_keeps_fetch_registers (step_of_running hs ▸ h)).1

/-- What every step keeps, the loop keeps. -/
theorem runLoop_keeps {P : State → Prop} (hstep : ∀ {s t}, P s → step s = .next t → P t)
    (k : Nat) {s : State} (hP : P s) : P (runLoop k s) := by
  induction k generalizing s with
  | zero => exact hP
  | succ k ih =>
    rcases hs : s.isHalted with _ | _
    · obtain ⟨t, ht⟩ := step_answers_next s
      rw [runLoop_succ_of_running hs ht]
      exact ih (hstep hP ht)
    · rwa [runLoop_of_halted hs]

/-- PC counts the cycles the loop executes. -/
theorem runLoop_pc (k : Nat) (s : State) : (runLoop k s).pc = s.pc + cyclesIn k s := by
  induction k generalizing s with
  | zero => rfl
  | succ k ih =>
    rcases hs : s.isHalted with _ | _
    · obtain ⟨t, ht⟩ := step_answers_next s
      rw [runLoop_succ_of_running hs ht, cyclesIn_succ_of_running hs ht, ih,
        step_pc_of_running hs ht, Nat.add_assoc]
    · rw [runLoop_of_halted hs, cyclesIn_of_halted hs, Nat.add_zero]

/-- One `runCycle` is the loop with one call. -/
theorem runCycle_fst_eq_runLoop_one (s : State) : (runCycle s).1 = runLoop 1 s := by
  simp [runLoop]

/-- R142: loading writes no register and keeps the memory canonical. -/
theorem loadProgram_keeps_inv (p : Program) {s : State} (hi : s.Inv) : (loadProgram p s).Inv :=
  { hi with
    memCanonical := Memory.wf_loadData (Memory.wf_loadInstructions hi.memCanonical _) _ }

theorem hostStep_keeps_inv (op : HostOp) {s : State} (hi : s.Inv) : (hostStep op s).1.Inv := by
  cases op with
  | construct => exact State.inv_reset
  | reset => exact State.inv_reset
  | loadProgram p => exact loadProgram_keeps_inv p hi
  | runCycle => exact runCycle_fst_eq_runLoop_one s ▸ runLoop_keeps step_keeps_inv 1 hi
  | runProgram => exact runLoop_keeps step_keeps_inv _ hi
  | snapshot _ => exact hi
  | readTrace => exact hi

/-- PC and the count of cycles since the last reset move together. -/
theorem hostStep_pc (op : HostOp) (s : State) : (hostStep op s).1.pc = cyclesAfter op s.pc s := by
  cases op with
  | runCycle => exact runCycle_fst_eq_runLoop_one s ▸ runLoop_pc 1 s
  | runProgram => exact runLoop_pc _ s
  | _ => rfl

/-- In a state the host can reach the invariant holds and PC is the number of cycles executed since
the last reset. -/
theorem Reachable.inv_and_pc {n : Nat} {s : State} (h : Reachable n s) : s.Inv ∧ s.pc = n := by
  induction h with
  | constructed => exact ⟨State.inv_reset, rfl⟩
  | hostOp op _ ih =>
    obtain ⟨hi, rfl⟩ := ih
    exact ⟨hostStep_keeps_inv op hi, hostStep_pc op _⟩

/-- Settles O50: the clauses of `State.Inv`, read with PC as the number of cycles. -/
theorem reachableStates : Obligations.ReachableStates := by
  intro n s h
  obtain ⟨hi, rfl⟩ := h.inv_and_pc
  refine ⟨hi.pcRange, Nat.le_pred_of_lt hi.marRange, fun hpos => ?_, fun h0 => ?_,
    hi.haltedByHlt, hi.traceLength⟩
  · obtain ⟨hmar, hmdr⟩ := hi.lastFetch (Nat.ne_of_gt hpos)
    exact ⟨by omega, hmdr⟩
  · obtain ⟨hmar, hir, hmdr, _⟩ := hi.noFetch h0
    exact ⟨h0, hmar, hir, hmdr⟩

end Sys2Proof.Machine
end

section
/-! PROOFS. The memory (R43 to R48) and what a fetch can see of it (R58). A data write lists entries
in the data plane only, and it is the one change a cycle makes to the memory, so no run changes the
instruction plane. -/

namespace Sys2Proof.Machine

/-! In range and out of range -/

theorem inRange_eq_false_iff (a : Int) :
    inRange a = false ↔ ¬(0 ≤ a ∧ a < (Config.memSize : Int)) := by
  rw [← inRange_iff, Bool.not_eq_true]

/-- R43: a data read out of range gives 0. -/
theorem Memory.getValue_of_not_inRange (m : Memory) {a : Int} (h : inRange a = false) :
    m.getValue a = 0 := by
  simp [Memory.getValue, h]

/-- R44: an instruction read out of range gives the empty text. -/
theorem Memory.getInstruction_of_not_inRange (m : Memory) {a : Int} (h : inRange a = false) :
    m.getInstruction a = [] := by
  simp [Memory.getInstruction, h]

/-! A read of the slot written, and of another slot -/

theorem Memory.getValue_setData_same (m : Memory) {a : Int} (h : inRange a = true) (v : Int) :
    (m.setData a v).getValue a = v := by
  rw [Memory.getValue_setData, if_pos ⟨h, rfl⟩]

theorem Memory.getValue_setData_of_ne (m : Memory) {a b : Int} (h : b ≠ a) (v : Int) :
    (m.setData a v).getValue b = m.getValue b := by
  rw [Memory.getValue_setData, if_neg (fun hab => h hab.2)]

theorem Memory.getInstruction_setInstruction_same (m : Memory) {a : Int} (h : inRange a = true)
    (t : Text) : (m.setInstruction a t).getInstruction a = t := by
  rw [Memory.getInstruction_setInstruction, if_pos ⟨h, rfl⟩]

theorem Memory.getInstruction_setInstruction_of_ne (m : Memory) {a b : Int} (h : b ≠ a)
    (t : Text) : (m.setInstruction a t).getInstruction b = m.getInstruction b := by
  rw [Memory.getInstruction_setInstruction, if_neg (fun hab => h hab.2)]

theorem Memory.present_setInstruction_same (m : Memory) {a : Int} (h : inRange a = true)
    (t : Text) : (m.setInstruction a t).present a = true := by
  rw [Memory.present_setInstruction, if_pos ⟨h, rfl⟩]

theorem Memory.present_setInstruction_of_ne (m : Memory) {a b : Int} (h : b ≠ a)
    (t : Text) : (m.setInstruction a t).present b = m.present b := by
  rw [Memory.present_setInstruction, if_neg (fun hab => h hab.2)]

/-! The instruction plane alone decides the instruction reads and the presence flags (R40) -/

theorem Memory.getInstruction_congr {m n : Memory} (h : m.instr = n.instr) (a : Int) :
    m.getInstruction a = n.getInstruction a := by
  simp [Memory.getInstruction, h]

theorem Memory.present_congr {m n : Memory} (h : m.instr = n.instr) (a : Int) :
    m.present a = n.present a := by
  simp [Memory.present, h]

/-- R142, R50: loading data pairs leaves the instruction plane. -/
@[simp] theorem loadData_instr (ps : List (Int × Int)) (m : Memory) :
    (loadData ps m).instr = m.instr := by
  induction ps generalizing m with
  | nil => rfl
  | cons p ps ih => exact (ih (m.setData p.1 p.2)).trans (Memory.setData_instr m p.1 p.2)

/-! No cycle and no run writes the instruction plane (R58) -/

theorem exec_keeps_instr {i : Instr} {s t : State} (h : exec i s = .next t) :
    t.mem.instr = s.mem.instr := by
  rcases exec_mem h with hm | ⟨a, v, hm⟩
  · rw [hm]
  · rw [hm, Memory.setData_instr]

theorem step_keeps_instr {s t : State} (h : step s = .next t) : t.mem.instr = s.mem.instr := by
  rcases step_cases h with ⟨_, rfl⟩ | ⟨_, hexec⟩
  · rfl
  · rw [exec_keeps_instr hexec, fetch_mem]

/-- R177: a run of any length answers a next state, and what every step keeps, the run keeps. -/
theorem core_run_keeps {P : State → Prop} (hstep : ∀ {s t}, P s → step s = .next t → P t)
    (k : Nat) {s : State} (hP : P s) : ∃ t, Host.Core.run core k s = .next t ∧ P t := by
  induction k generalizing s with
  | zero => exact ⟨s, core_run_zero s, hP⟩
  | succ k ih =>
    obtain ⟨u, hu⟩ := step_answers_next s
    rw [core_run_succ hu]
    exact ih (hstep hP hu)

theorem core_run_keeps_instr (k : Nat) (s : State) :
    ∃ t, Host.Core.run core k s = .next t ∧ t.mem.instr = s.mem.instr :=
  core_run_keeps (P := fun t => t.mem.instr = s.mem.instr)
    (fun hP h => (step_keeps_instr h).trans hP) k rfl

/-- R58, R142: the text loaded at PC is what the next fetch puts into IR, whatever data is loaded
with it. -/
theorem fetch_ir_loadProgram (s : State) (text : Text) (ds : List (Int × Int))
    (h : s.pc < Config.memSize) :
    (fetch (loadProgram { instructions := [((s.pc : Int), text)], dataValues := ds } s)).ir
      = text := by
  rw [fetch_ir, loadProgram_pc, loadProgram_mem, Memory.getInstruction_congr (loadData_instr _ _)]
  exact Memory.getInstruction_setInstruction_same s.mem ((inRange_natCast _).mpr h) text

/-! The obligations -/

/-- Settles O38: every step keeps the instruction plane, so every run does; loading writes it. -/
theorem fetchNeverSeesAStore : Obligations.FetchNeverSeesAStore := by
  refine ⟨fun k s => ?_, fetch_ir_loadProgram⟩
  obtain ⟨t, hrun, hinstr⟩ := core_run_keeps_instr k s
  exact ⟨t, hrun,
    fun a => ⟨Memory.getInstruction_congr hinstr a, Memory.present_congr hinstr a⟩⟩

/-- Settles O20: the read of the slot written, the dropped write, and the frame. -/
theorem dataPlaneWrite : Obligations.DataPlaneWrite := fun m a v =>
  ⟨fun h => m.getValue_setData_same ((inRange_iff a).mpr h) v,
    fun h => m.setData_of_not_inRange ((inRange_eq_false_iff a).mpr h) v,
    fun _ hb => m.getValue_setData_of_ne hb v,
    fun b => ⟨m.getInstruction_setData a b v, m.present_setData a b v⟩⟩

/-- Settles O21: the text and the flag of the slot written, the dropped write, and the frame. -/
theorem instructionPlaneWrite : Obligations.InstructionPlaneWrite := fun m a t =>
  ⟨fun h =>
      have ha := (inRange_iff a).mpr h
      ⟨m.getInstruction_setInstruction_same ha t, m.present_setInstruction_same ha t⟩,
    fun h => m.setInstruction_of_not_inRange ((inRange_eq_false_iff a).mpr h) t,
    fun _ hb => ⟨m.getInstruction_setInstruction_of_ne hb t, m.present_setInstruction_of_ne hb t⟩,
    fun b => m.getValue_setInstruction a b t⟩

/-- Settles O3: the four operations at an address that is not in range. -/
theorem memoryBoundaryPolicy : Obligations.MemoryBoundaryPolicy := by
  intro m a v t hout
  have ha : inRange a = false := (inRange_eq_false_iff a).mpr (by omega)
  exact ⟨m.getValue_of_not_inRange ha, m.getInstruction_of_not_inRange ha,
    m.setData_of_not_inRange ha v, m.setInstruction_of_not_inRange ha t⟩

/-- Settles O4: the cleared memory is the empty one, and so is the memory after reset. -/
theorem clearRestoresDefaults : Obligations.ClearRestoresDefaults := by
  refine ⟨fun m a _ _ => ?_, fun s => ?_⟩
  · rw [Memory.clear_eq_empty]
    exact ⟨Memory.getValue_empty a, Memory.getInstruction_empty a, Memory.present_empty a⟩
  · rw [resetMachine_mem, Memory.clear_eq_empty]

end Sys2Proof.Machine
end

section
/-! PROOFS. What `decode` answers (R68), the range of its operands (R77) and the worked decodes
(R80). The checks of R68 read the token list, so each case is one lemma about `tokens t`; that every
value in range is reached is shown by the encoder's text for it. -/

namespace Sys2Proof

/-! The case of each check (R68) -/

theorem decode_of_blank {t : Text} (h : blank t = true) : decode t = .empty := by
  simp [decode, h]

/-- R62: a text that is not blank has a first token. -/
theorem exists_tokens_eq_cons {t : Text} (h : blank t = false) :
    ∃ op rest, tokens t = op :: rest :=
  List.exists_cons_of_ne_nil fun hnil =>
    Bool.false_ne_true (h.symm.trans ((tokens_eq_nil_iff t).mp hnil))

theorem decode_missingOperand {t op : Text} (h : tokens t = [op]) (hop : upper op ≠ mnHlt) :
    decode t = .missingOperand := by
  rw [decode_eq_decodeTokens, h]
  simp [decodeTokens, hop]

theorem decode_invalidAddress {t op num : Text} {rest : List Text} {r : Reason}
    (h : tokens t = op :: num :: rest) (hop : upper op ≠ mnHlt)
    (hr : validateAddress num Config.addrLimit = .error r) : decode t = .invalidAddress r := by
  rw [decode_eq_decodeTokens, h]
  simp [decodeTokens, hop, hr]

/-! The dispatch on the opcode (R68) -/

@[simp] theorem decodeOpcode_mnLoad (a : Int) : decodeOpcode mnLoad a = .load a := rfl
@[simp] theorem decodeOpcode_mnStore (a : Int) : decodeOpcode mnStore a = .store a := rfl
@[simp] theorem decodeOpcode_mnAdd (a : Int) : decodeOpcode mnAdd a = .add a := rfl
@[simp] theorem decodeOpcode_mnSub (a : Int) : decodeOpcode mnSub a = .sub a := rfl

theorem decodeOpcode_of_not_mem {op : Text} (h : op ∉ [mnLoad, mnStore, mnAdd, mnSub]) (a : Int) :
    decodeOpcode op a = .unknown a := by
  simp only [List.mem_cons, List.not_mem_nil, or_false, not_or] at h
  obtain ⟨hload, hstore, hadd, hsub⟩ := h
  simp [decodeOpcode, hload, hstore, hadd, hsub]

/-- The dispatch hands the operand on, whichever opcode it is. -/
@[simp] theorem decodeOpcode_address (op : Text) (a : Int) :
    (decodeOpcode op a).address = some a := by
  unfold decodeOpcode
  split_ifs <;> rfl

/-! The operand of a decoded instruction (R77) -/

/-- Only a second token that the validator accepts becomes an operand. -/
theorem validated_of_decode_address {t : Text} {a : Int} (h : (decode t).address = some a) :
    ∃ num, validateAddress num Config.addrLimit = .ok a := by
  rcases htok : tokens t with _ | ⟨op, rest⟩
  · rw [decode_of_blank ((tokens_eq_nil_iff t).mp htok)] at h
    cases h
  by_cases hop : upper op = mnHlt
  · rw [decode_hlt htok hop] at h
    cases h
  rcases rest with _ | ⟨num, more⟩
  · rw [decode_missingOperand htok hop] at h
    cases h
  rcases hnum : validateAddress num Config.addrLimit with r | b
  · rw [decode_invalidAddress htok hop hnum] at h
    cases h
  · rw [decode_operand htok hop hnum, decodeOpcode_address] at h
    exact ⟨num, Option.some.inj h ▸ hnum⟩

theorem addrOk_iff (a : Int) : addrOk a = true ↔ 0 ≤ a ∧ a < Config.addrLimit := by
  simp [addrOk]

theorem Instr.wf_iff (i : Instr) :
    i.wf = true ↔ ∀ a, i.address = some a → 0 ≤ a ∧ a < Config.addrLimit := by
  rcases h : i.address with _ | a <;> simp [Instr.wf, h, addrOk_iff]

theorem decode_wf (t : Text) : (decode t).wf = true :=
  (Instr.wf_iff _).mpr fun _ h =>
    have ⟨_, hnum⟩ := validated_of_decode_address h
    (validateAddress_eq_ok.mp hnum).2

/-! The decoding of an encoded instruction (R75) -/

/-- R67: the decimal rendering of an address in range passes the validator. -/
theorem validateAddress_dec {a : Int} (h : addrOk a = true) :
    validateAddress (dec a) Config.addrLimit = .ok a :=
  validateAddress_eq_ok.mpr ⟨intParse_dec a, (addrOk_iff a).mp h⟩

theorem decode_spellT1 {op : Text} (hne : op ≠ []) (hns : op.all (fun c => !isSpace c) = true)
    (hop : upper op ≠ mnHlt) {a : Int} (ha : addrOk a = true) :
    decode (spellT1 op a) = decodeOpcode (upper op) a :=
  decode_operand (Laws.EncodedTokens.tokens_spellT1 hne hns a) hop (validateAddress_dec ha)

theorem decode_encode {i : Instr} (h : i.wf = true) : decode (encode i) = i := by
  cases i with
  | empty => rfl
  | hlt => decide
  | missingOperand => decide
  | invalidAddress r => cases r <;> decide
  | load a => exact decode_spellT1 (by decide) (by decide) (by decide) h
  | store a => exact decode_spellT1 (by decide) (by decide) (by decide) h
  | add a => exact decode_spellT1 (by decide) (by decide) (by decide) h
  | sub a => exact decode_spellT1 (by decide) (by decide) (by decide) h
  | unknown a => exact decode_spellT1 (by decide) (by decide) (by decide) h

/-! The obligations -/

/-- Settles O25: one lemma for each check, in the order of the rule. -/
theorem decodeChecksInOrder : Obligations.DecodeChecksInOrder := by
  refine fun t => ⟨decode_of_blank, fun hblank => ?_⟩
  obtain ⟨op, rest, htok⟩ := exists_tokens_eq_cons hblank
  refine ⟨op, rest, htok, decode_hlt htok, fun hop => ⟨?_, ?_⟩⟩
  · rintro rfl
    exact decode_missingOperand htok hop
  · rintro operand more rfl
    refine ⟨fun r => decode_invalidAddress htok hop, fun a ha => ?_⟩
    rw [decode_operand htok hop ha]
    exact ⟨fun h => h ▸ decodeOpcode_mnLoad a, fun h => h ▸ decodeOpcode_mnStore a,
      fun h => h ▸ decodeOpcode_mnAdd a, fun h => h ▸ decodeOpcode_mnSub a,
      fun h => decodeOpcode_of_not_mem h a⟩

/-- Settles O26: the validator bounds every operand, and the encoder's text reaches every value. -/
theorem decodedValuesAreTheWellFormedOnes : Obligations.DecodedValuesAreTheWellFormedOnes :=
  ⟨fun t => (decode t).wf_iff.mp (decode_wf t),
    fun i h => ⟨encode i, decode_encode (i.wf_iff.mpr h)⟩⟩

/-- Settles O6: the 22 texts are closed, so each decode is a finite evaluation. -/
theorem workedDecodes : Obligations.WorkedDecodes := by
  unfold Obligations.WorkedDecodes
  decide

end Sys2Proof
end

section
/-! PROOFS. The cycle (R90 to R100): the gate, the fetch, and what an executed cycle may change. An
open gate makes the step `exec` of the decoded text on the fetched state, so each statement is read off
what `exec` does to any state. -/

namespace Sys2Proof.Machine

/-! The gate (R91) -/

/-- R91: on a closed gate any number of steps changes nothing. -/
theorem core_run_of_halted {s : State} (h : s.isHalted = true) (k : Nat) :
    Host.Core.run core k s = .next s := by
  induction k with
  | zero => exact core_run_zero s
  | succ k ih => rw [core_run_succ (step_of_halted h), ih]

/-- R93: on a state whose flag is not set `decodeExecute` runs the text in IR. -/
theorem decodeExecute_of_not_halted {s : State} (h : s.halted = false) :
    decodeExecute s = exec (decode s.ir) s := by
  simp [decodeExecute, h]

/-- R91: an open gate is one fetch and one `decodeExecute`. -/
theorem step_eq_decodeExecute_fetch {s : State} (h : s.isHalted = false) :
    step s = decodeExecute (fetch s) := by
  obtain ⟨hrun, -⟩ := (s.isHalted_eq_false_iff).mp h
  rw [step_of_running h, decodeExecute_of_not_halted ((fetch_halted s).trans hrun), fetch_ir,
    State.nextInstr_eq]

/-! The answer of `runCycle` (R97) -/

/-- R97: an executed cycle ends with the flag set exactly when it ran a HLT. -/
theorem step_sets_halted_iff {s t : State} (hs : s.isHalted = false) (h : step s = .next t) :
    t.halted = true ↔ s.nextInstr = .hlt := by
  obtain ⟨hrun, -⟩ := (s.isHalted_eq_false_iff).mp hs
  rw [step_of_running hs] at h
  simpa [hrun] using exec_halted_iff h

theorem runCycle_answers_false_iff_of_running {s : State} (hs : s.isHalted = false) :
    (runCycle s).2 = false ↔ s.nextInstr = .hlt := by
  obtain ⟨t, ht⟩ := step_answers_next s
  rw [runCycle_of_running hs ht, Bool.not_eq_false', step_sets_halted_iff hs ht]

theorem runCycle_answers_false_iff (s : State) :
    (runCycle s).2 = false ↔ s.isHalted = true ∨ (s.isHalted = false ∧ s.nextInstr = .hlt) := by
  rcases hs : s.isHalted with _ | _
  · simp [runCycle_answers_false_iff_of_running hs]
  · simp [runCycle_of_halted hs]

theorem runCycle_pc_of_running {s : State} (hs : s.isHalted = false) :
    (runCycle s).1.pc = s.pc + 1 := by
  obtain ⟨t, ht⟩ := step_answers_next s
  rw [runCycle_of_running hs ht]
  exact step_pc_of_running hs ht

/-! The empty cycle (R96) -/

/-- R42, R61: a slot where nothing was loaded is blank. -/
theorem blank_getInstruction_of_absent {m : Memory} {a : Int} (h : m.present a = false) :
    blank (m.getInstruction a) = true := by
  rw [Memory.getInstruction_of_absent h, blank_nil]

/-- R96: the cycle of a blank slot is the fetch alone. -/
theorem step_of_blank {s : State} (hs : s.isHalted = false)
    (hb : blank (s.mem.getInstruction s.pc) = true) : step s = .next (fetch s) := by
  rw [step_of_running hs, State.nextInstr_eq, decode_of_blank hb]
  rfl

/-! What an executed cycle changes (R100) -/

/-- R100: what a meaning changes on any state, by the decoded form. -/
theorem exec_changesBeyondFetch {i : Instr} {s t : State} (h : exec i s = .next t) :
    changesBeyondFetch i s t := by
  unfold changesBeyondFetch
  cases i with
  | load _ | add _ | sub _ => cases h; exact ⟨fun _ => rfl, rfl, _, rfl⟩
  | store _ =>
    cases h
    exact ⟨rfl, fun _ hb => Memory.getValue_setData_of_ne _ hb _, rfl, _, rfl⟩
  | hlt => cases h; exact ⟨rfl, fun _ => rfl, rfl, _, rfl⟩
  | missingOperand | invalidAddress _ | unknown _ =>
    cases h; exact ⟨rfl, fun _ => rfl, rfl, _, rfl⟩
  | empty => cases h; exact ⟨rfl, fun _ => rfl, rfl, rfl⟩

/-- R92: the fetch touches nothing that `changesBeyondFetch` reads. -/
theorem changesBeyondFetch_fetch (i : Instr) (s t : State) :
    changesBeyondFetch i (fetch s) t ↔ changesBeyondFetch i s t := by
  cases i <;> rfl

/-! The obligations -/

/-- Settles O7: the field laws of `fetch`; an open gate bounds PC before the fetch. -/
theorem fetchEffect : Obligations.FetchEffect := by
  refine fun s => ⟨fetch_mar s, fetch_ir s, fetch_mdr s, fetch_pc s, fetch_mem s, fetch_ac s,
    fetch_halted s, fetch_trace s, fun ⟨_, hpc⟩ => ?_⟩
  rw [fetch_mar, fetch_pc]
  exact ⟨hpc, Nat.succ_pos _, hpc⟩

/-- Settles O28: the two cases of the gate. -/
theorem gateOfRunCycle : Obligations.GateOfRunCycle := by
  refine fun s => ⟨fun hclosed => ?_, fun hopen => ?_⟩
  · have hs : s.isHalted = true := (s.isHalted_iff).mpr hclosed
    exact ⟨runCycle_of_halted hs, core_run_of_halted hs⟩
  · have hs : s.isHalted = false := (s.isHalted_eq_false_iff).mpr hopen
    obtain ⟨t, ht⟩ := step_answers_next s
    exact ⟨t, step_eq_decodeExecute_fetch hs ▸ ht, ht, runCycle_of_running hs ht⟩

/-- Settles O29: only HLT sets the flag; the cycle of the last slot closes the gate by PC, not by the
flag, so it still answers true. -/
theorem runCycleAnswer : Obligations.RunCycleAnswer := by
  refine fun s => ⟨runCycle_answers_false_iff s, fun hrun hlast hne => ?_⟩
  have hs : s.isHalted = false := (s.isHalted_eq_false_iff).mpr ⟨hrun, by omega⟩
  have hpc : (runCycle s).1.pc = Config.memSize := (runCycle_pc_of_running hs).trans hlast
  have hans : (runCycle s).2 ≠ false := mt (runCycle_answers_false_iff_of_running hs).mp hne
  exact ⟨Bool.eq_true_of_not_eq_false hans, hpc,
    runCycle_of_halted ((State.isHalted_iff _).mpr (.inr hpc.ge))⟩

/-- Settles O30: the blank form changes nothing, so the cycle's state is the fetched one. -/
theorem emptyCycle : Obligations.EmptyCycle := by
  refine fun s hrun hpc => ⟨blank_getInstruction_of_absent, fun hb => ?_⟩
  have hs : s.isHalted = false := (s.isHalted_eq_false_iff).mpr ⟨hrun, hpc⟩
  rw [runCycle_of_running hs (step_of_blank hs hb), fetch_halted, fetch_eq, hrun, Bool.not_false]

/-- Settles O31: the fetch writes the four registers, no meaning touches them again, and the rest is
the meaning's. -/
theorem cycleChangesInTotal : Obligations.CycleChangesInTotal := by
  intro s hrun hpc
  have hs : s.isHalted = false := (s.isHalted_eq_false_iff).mpr ⟨hrun, hpc⟩
  obtain ⟨t, ht⟩ := step_answers_next s
  have hexec : exec s.nextInstr (fetch s) = .next t := step_of_running hs ▸ ht
  obtain ⟨hpc', hir, hmar, hmdr⟩ := exec_keeps_fetch_registers hexec
  have hinstr : t.mem.instr = s.mem.instr := step_keeps_instr ht
  exact ⟨t, ht, hmar, hmdr, hir, hpc',
    fun a => ⟨Memory.getInstruction_congr hinstr a, Memory.present_congr hinstr a⟩,
    (changesBeyondFetch_fetch _ s t).mp (exec_changesBeyondFetch hexec)⟩

end Sys2Proof.Machine
end

section
/-! PROOFS. Halting (R131, R133). A closed gate stays closed and stops the loop, so a run cut in two
is the second part run from the end of the first; a run that meets no HLT keeps the flag clear and
executes a cycle at every call until PC leaves the memory. -/

namespace Sys2Proof.Machine

/-! Halted is terminal (R133) -/

/-- R27, R142: loading writes neither the flag nor PC, so it moves no machine into or out of Halted. -/
theorem loadProgram_isHalted (p : Program) (s : State) :
    (loadProgram p s).isHalted = s.isHalted := by
  rw [State.isHalted, State.isHalted, loadProgram_halted, loadProgram_pc]

/-- R133, R149: a Halted machine executes nothing, and the reads of the host change nothing. -/
theorem hostStep_of_halted {op : HostOp} {s : State} (hreset : op ≠ .reset)
    (hconstruct : op ≠ .construct) (hload : ∀ p, op ≠ .loadProgram p) (hs : s.isHalted = true) :
    (hostStep op s).1 = s := by
  cases op with
  | construct => exact absurd rfl hconstruct
  | reset => exact absurd rfl hreset
  | loadProgram p => exact absurd rfl (hload p)
  | runCycle => exact congrArg Prod.fst (runCycle_of_halted hs)
  | runProgram => exact runLoop_of_halted hs _
  | snapshot _ => rfl
  | readTrace => rfl

/-- Settles O39: `loadProgram` keeps the two causes of Halted, and the other operations keep the
whole state. -/
theorem haltedIsTerminal : Obligations.HaltedIsTerminal := by
  intro op s hreset hconstruct hs
  have hkept := fun hload => hostStep_of_halted hreset hconstruct hload hs
  refine ⟨?_, hkept⟩
  by_cases hload : ∃ p, op = .loadProgram p
  · obtain ⟨p, rfl⟩ := hload
    exact (loadProgram_isHalted p s).trans hs
  · rwa [hkept (not_exists.mp hload)]

/-! A run cut in two (R148) -/

theorem runLoop_add (j k : Nat) (s : State) : runLoop (j + k) s = runLoop k (runLoop j s) := by
  induction j generalizing s with
  | zero => rw [Nat.zero_add, runLoop]
  | succ j ih =>
    rcases hs : s.isHalted with _ | _
    · obtain ⟨t, ht⟩ := step_answers_next s
      rw [Nat.succ_add, runLoop_succ_of_running hs ht, runLoop_succ_of_running hs ht, ih]
    · simp only [runLoop_of_halted hs]

theorem cyclesIn_add (j k : Nat) (s : State) :
    cyclesIn (j + k) s = cyclesIn j s + cyclesIn k (runLoop j s) := by
  have hpc : (runLoop (j + k) s).pc = (runLoop k (runLoop j s)).pc :=
    congrArg State.pc (runLoop_add j k s)
  rw [runLoop_pc, runLoop_pc, runLoop_pc] at hpc
  omega

/-! A run that meets no HLT (R131) -/

/-- R27, R130: a cycle of any other instruction leaves the flag clear. -/
theorem step_halted_eq_false {s t : State} (hs : s.isHalted = false) (h : step s = .next t)
    (hne : s.nextInstr ≠ .hlt) : t.halted = false :=
  Bool.eq_false_iff.mpr (mt (step_sets_halted_iff hs h).mp hne)

/-- R131: as long as the next `k` slots are in the memory and hold no HLT, each of `k` calls executes
a cycle, and the flag stays clear. -/
theorem run_of_no_hlt (k : Nat) {s : State} (hrun : s.halted = false)
    (hk : s.pc + k ≤ Config.memSize)
    (hne : ∀ a : Nat, s.pc ≤ a → a < s.pc + k → decode (s.mem.getInstruction a) ≠ .hlt) :
    cyclesIn k s = k ∧ (runLoop k s).halted = false := by
  induction k generalizing s with
  | zero => exact ⟨rfl, hrun⟩
  | succ k ih =>
    have hs : s.isHalted = false := (s.isHalted_eq_false_iff).mpr ⟨hrun, by omega⟩
    obtain ⟨t, ht⟩ := step_answers_next s
    have hpc : t.pc = s.pc + 1 := step_pc_of_running hs ht
    have htrun : t.halted = false := step_halted_eq_false hs ht (hne s.pc le_rfl (by omega))
    have htne : ∀ a : Nat, t.pc ≤ a → a < t.pc + k → decode (t.mem.getInstruction a) ≠ .hlt := by
      intro a hlo hhi
      rw [Memory.getInstruction_congr (step_keeps_instr ht)]
      exact hne a (by omega) (by omega)
    obtain ⟨hcycles, hflag⟩ := ih htrun (by omega) htne
    rw [cyclesIn_succ_of_running hs ht, runLoop_succ_of_running hs ht, hcycles]
    exact ⟨Nat.add_comm 1 k, hflag⟩

/-- R131, R149: with the flag clear and no HLT from PC on, the whole run is the cycles of the slots
left, and its last call finds the gate closed by PC. -/
theorem runProgram_of_no_hlt {s : State} (hrun : s.halted = false) (hpc : s.pc ≤ Config.memSize)
    (hne : ∀ a : Nat, s.pc ≤ a → a < Config.memSize → decode (s.mem.getInstruction a) ≠ .hlt) :
    cyclesIn (runBound s) s = Config.memSize - s.pc ∧
    (runProgram s).1.pc = Config.memSize ∧ (runProgram s).1.halted = false := by
  obtain ⟨hcycles, hflag⟩ := run_of_no_hlt (Config.memSize - s.pc) hrun (by omega)
    (fun a hlo hhi => hne a hlo (by omega))
  have hend : (runLoop (Config.memSize - s.pc) s).pc = Config.memSize := by
    rw [runLoop_pc, hcycles]
    omega
  have hclosed : (runLoop (Config.memSize - s.pc) s).isHalted = true :=
    (State.isHalted_iff _).mpr (.inr hend.ge)
  have hlast : (runProgram s).1 = runLoop (Config.memSize - s.pc) s :=
    (runLoop_add _ 1 s).trans (runLoop_of_halted hclosed 1)
  refine ⟨?_, hlast ▸ hend, hlast ▸ hflag⟩
  rw [runBound, cyclesIn_add, cyclesIn_of_halted hclosed, hcycles, Nat.add_zero]

/-- Settles O41: the gate closed by PC, the cycle of an instruction other than HLT, and the run of
no HLT taken at PC 0. -/
theorem implicitHalt : Obligations.ImplicitHalt := by
  refine ⟨fun s hpc => ?_, fun s hrun hpc hne => ?_, fun p hne => ?_⟩
  · have hs : s.isHalted = true := (s.isHalted_iff).mpr (.inr hpc)
    exact ⟨runCycle_of_halted hs, hs⟩
  · have hs : s.isHalted = false := (s.isHalted_eq_false_iff).mpr ⟨hrun, hpc⟩
    obtain ⟨t, ht⟩ := step_answers_next s
    rw [runCycle_of_running hs ht]
    exact ⟨step_pc_of_running hs ht, step_halted_eq_false hs ht hne⟩
  · exact runProgram_of_no_hlt (s := loadProgram p construct) rfl (Nat.zero_le _)
      (fun a _ ha => hne a (Int.natCast_nonneg a) (Int.ofNat_lt.mpr ha))

end Sys2Proof.Machine
end

section
/-! PROOFS. `runProgram` (R148, R149). Each executed cycle moves PC on by one and the gate closes at
`PC = N`, so `N − PC` cycles end every loop; further calls find the gate closed. -/

namespace Sys2Proof.Machine

/-! The loop ends (R149) -/

/-- R149: the loop executes at most the cycles PC has left, however many calls it makes. -/
theorem cyclesIn_le (k : Nat) (s : State) : cyclesIn k s ≤ Config.memSize - s.pc := by
  induction k generalizing s with
  | zero => exact Nat.zero_le _
  | succ k ih =>
    rcases hs : s.isHalted with _ | _
    · obtain ⟨-, hlt⟩ := (s.isHalted_eq_false_iff).mp hs
      obtain ⟨t, ht⟩ := step_answers_next s
      have hpc : t.pc = s.pc + 1 := step_pc_of_running hs ht
      have hrest : cyclesIn k t ≤ Config.memSize - t.pc := ih t
      rw [cyclesIn_succ_of_running hs ht]
      omega
    · exact cyclesIn_of_halted hs _ ▸ Nat.zero_le _

/-- R148: after `k` calls the machine is Halted, or each of them has executed a cycle. -/
theorem runLoop_isHalted_or_cyclesIn_eq (k : Nat) (s : State) :
    (runLoop k s).isHalted = true ∨ cyclesIn k s = k := by
  induction k generalizing s with
  | zero => exact .inr rfl
  | succ k ih =>
    rcases hs : s.isHalted with _ | _
    · obtain ⟨t, ht⟩ := step_answers_next s
      rw [runLoop_succ_of_running hs ht, cyclesIn_succ_of_running hs ht]
      exact (ih t).imp_right (by omega)
    · exact .inl ((runLoop_of_halted hs _).symm ▸ hs)

/-- R148, R149: `runProgram` makes one call more than the loop can execute cycles, so it ends
Halted. -/
theorem runProgram_isHalted (s : State) : (runProgram s).1.isHalted = true := by
  have hle : cyclesIn (runBound s) s ≤ Config.memSize - s.pc := cyclesIn_le _ s
  refine (runLoop_isHalted_or_cyclesIn_eq (runBound s) s).resolve_right fun hall => ?_
  rw [hall, runBound] at hle
  omega

/-- The bound never cuts the loop short (log 25). -/
theorem runLoop_eq_runProgram {k : Nat} {s : State} (h : runBound s ≤ k) :
    runLoop k s = (runProgram s).1 := by
  obtain ⟨more, rfl⟩ := Nat.exists_eq_add_of_le h
  exact (runLoop_add _ more s).trans (runLoop_of_halted (runProgram_isHalted s) more)

/-- The loop is the machine's steps, one for each executed cycle. -/
theorem core_run_cyclesIn (k : Nat) (s : State) :
    Host.Core.run core (cyclesIn k s) s = .next (runLoop k s) := by
  induction k generalizing s with
  | zero => exact core_run_zero s
  | succ k ih =>
    rcases hs : s.isHalted with _ | _
    · obtain ⟨t, ht⟩ := step_answers_next s
      rw [runLoop_succ_of_running hs ht, cyclesIn_succ_of_running hs ht, Nat.add_comm,
        core_run_succ ht, ih]
    · rw [runLoop_of_halted hs, core_run_of_halted hs]

/-! The trace accumulates (R95, R148) -/

theorem exec_trace_prefix {i : Instr} {s t : State} (h : exec i s = .next t) :
    s.trace <+: t.trace := by
  rcases exec_trace h with ht | ⟨m, ht⟩
  · exact ht ▸ List.prefix_rfl
  · rw [ht, State.log_trace]
    exact List.prefix_append _ _

theorem step_trace_prefix {s t : State} (h : step s = .next t) : s.trace <+: t.trace := by
  rcases step_cases h with ⟨_, rfl⟩ | ⟨_, hexec⟩
  · exact List.prefix_rfl
  · exact fetch_trace s ▸ exec_trace_prefix hexec

theorem runLoop_trace_prefix (k : Nat) (s : State) : s.trace <+: (runLoop k s).trace :=
  runLoop_keeps (P := fun t => s.trace <+: t.trace)
    (fun hP h => hP.trans (step_trace_prefix h)) k List.prefix_rfl

/-- R148: the lines the run returns begin with the lines already there. -/
theorem runProgram_lines_append (s : State) : ∃ more, (runProgram s).2 = s.traceLines ++ more := by
  obtain ⟨more, h⟩ := (runLoop_trace_prefix (runBound s) s).map TraceEntry.text
  exact ⟨more, h.symm⟩

/-- R149: on a Halted machine the loop executes nothing, and the answer is the trace as it stands. -/
theorem runProgram_of_halted {s : State} (h : s.isHalted = true) :
    runProgram s = (s, s.traceLines) := by
  rw [runProgram, runLoop_of_halted h]

/-- Settles O45: PC bounds the cycles, so the loop ends Halted within its bound; its state is that of
the steps executed, and its trace extends the one before. -/
theorem runProgramEnds : Obligations.RunProgramEnds := fun s =>
  ⟨cyclesIn_le _ s, runProgram_isHalted s, core_run_cyclesIn _ s, runLoop_pc _ s,
    fun _ => runLoop_eq_runProgram, rfl, runProgram_lines_append s, runProgram_of_halted⟩

end Sys2Proof.Machine
end

section
/-! PROOFS. Errors (R175, R177). An error form answers the state it is given with its line raised, so an
error cycle is the fetch and one line; and as only HLT sets the flag, a Running machine closes its own
gate by HLT or by the PC of the last slot. -/

namespace Sys2Proof.Machine

/-! An error cycle (R175) -/

/-- R171 to R173: an error form raises its error and does nothing else. -/
theorem exec_of_errorOf {i : Instr} {k : ErrorKind} (h : errorOf i = some k) (s : State) :
    exec i s = .next (s.raise k) := by
  cases i with
  | missingOperand | invalidAddress _ | unknown _ => cases h; rfl
  | empty | hlt | load _ | store _ | add _ | sub _ => cases h

/-- R175: an error cycle is the fetch and the error's line, and its call answers true. -/
theorem runCycle_of_errorOf {s : State} {k : ErrorKind} (hs : s.isHalted = false)
    (h : errorOf s.nextInstr = some k) : runCycle s = ((fetch s).raise k, true) := by
  obtain ⟨hrun, -⟩ := (s.isHalted_eq_false_iff).mp hs
  have hstep : step s = .next ((fetch s).raise k) :=
    (step_of_running hs).trans (exec_of_errorOf h _)
  rw [runCycle_of_running hs hstep, State.raise_eq_log, State.log_halted, fetch_halted, hrun,
    Bool.not_false]

/-! What ends a run (R177) -/

/-- R27, R177: an executed cycle that ends Halted ran HLT or moved PC to `N`. -/
theorem hlt_or_pc_eq_memSize_of_step {s t : State} (hs : s.isHalted = false)
    (h : step s = .next t) (ht : t.isHalted = true) :
    s.nextInstr = .hlt ∨ t.pc = Config.memSize := by
  obtain ⟨-, hlt⟩ := (s.isHalted_eq_false_iff).mp hs
  refine (t.isHalted_iff.mp ht).imp (step_sets_halted_iff hs h).mp fun hend => ?_
  have hpc : t.pc = s.pc + 1 := step_pc_of_running hs h
  omega

/-! The obligations -/

/-- Settles O36: the cycle's state is the fetched one with the error's line, read field by field. -/
theorem errorCycleIsLocal : Obligations.ErrorCycleIsLocal := by
  intro s k hrun hpc herr
  have hs : s.isHalted = false := (s.isHalted_eq_false_iff).mpr ⟨hrun, hpc⟩
  exact ⟨(fetch s).raise k, runCycle_of_errorOf hs herr, rfl, rfl, rfl, rfl, fetch_log s (.error k),
    rfl, rfl, fun _ => ⟨rfl, rfl, rfl⟩⟩

/-- Settles O37: no instruction and no step answers otherwise than next, and the gate has two
causes. -/
theorem nothingIsFatal : Obligations.NothingIsFatal :=
  ⟨exec_answers_next, step_answers_next, fun s _ h hrun ht =>
    hlt_or_pc_eq_memSize_of_step (s.isRunning_iff.mp hrun) h ht⟩

end Sys2Proof.Machine
end

section
/-! PROOFS. Reset, and what it alone undoes (R200, R202), and the run that its HLT ends (R212). Every
operation on a core but reset and construction is a load, some steps, or a read, so what a step and a
load keep, they all keep; and a run that reaches a HLT by slots without one has executed a cycle for
each slot, the HLT's among them. -/

namespace Sys2Proof.Machine

/-! What the host cannot undo (R200) -/

/-- R133, R200: no step clears the flag. -/
theorem step_keeps_halted {s t : State} (hs : s.halted = true) (h : step s = .next t) :
    t.halted = true := by
  rcases step_cases h with ⟨_, rfl⟩ | ⟨_, hexec⟩
  · exact hs
  · exact (exec_halted_iff hexec).mpr (.inl ((fetch_halted s).trans hs))

/-- R46: writing an instruction removes none. -/
theorem Memory.present_setInstruction_of_present {m : Memory} {b : Int} (h : m.present b = true)
    (a : Int) (t : Text) : (m.setInstruction a t).present b = true := by
  rw [Memory.present_setInstruction]
  split
  · rfl
  · exact h

/-- R142: loading instructions removes none. -/
theorem present_loadInstructions_of_present {m : Memory} {a : Int} (h : m.present a = true)
    (ps : List (Int × Text)) : (loadInstructions ps m).present a = true := by
  induction ps generalizing m with
  | nil => exact h
  | cons p ps ih => exact ih (Memory.present_setInstruction_of_present h p.1 p.2)

theorem loadProgram_keeps_present {s : State} {a : Int} (h : s.mem.present a = true)
    (p : Program) : (loadProgram p s).mem.present a = true := by
  rw [loadProgram_mem, Memory.present_congr (loadData_instr _ _)]
  exact present_loadInstructions_of_present h p.instructions

theorem step_keeps_present {s t : State} {a : Int} (hs : s.mem.present a = true)
    (h : step s = .next t) : t.mem.present a = true :=
  (Memory.present_congr (step_keeps_instr h) a).trans hs

/-- What every load and every step keeps, every operation of the host on a core keeps, but reset (and
construction, which makes a new core, log 28). -/
theorem hostStep_keeps {P : State → Prop} (hload : ∀ {s}, P s → ∀ p, P (loadProgram p s))
    (hstep : ∀ {s t}, P s → step s = .next t → P t) {op : HostOp} (hreset : op ≠ .reset)
    (hconstruct : op ≠ .construct) {s : State} (hP : P s) : P (hostStep op s).1 := by
  cases op with
  | construct => exact absurd rfl hconstruct
  | reset => exact absurd rfl hreset
  | loadProgram p => exact hload hP p
  | runCycle => exact runCycle_fst_eq_runLoop_one s ▸ runLoop_keeps hstep 1 hP
  | runProgram => exact runLoop_keeps hstep _ hP
  | snapshot _ => exact hP
  | readTrace => exact hP

theorem hostStep_keeps_halted {op : HostOp} (hreset : op ≠ .reset) (hconstruct : op ≠ .construct)
    {s : State} (hs : s.halted = true) : (hostStep op s).1.halted = true :=
  hostStep_keeps (P := fun t => t.halted = true) (fun ht p => (loadProgram_halted p _).trans ht)
    step_keeps_halted hreset hconstruct hs

theorem hostStep_keeps_present {op : HostOp} (hreset : op ≠ .reset)
    (hconstruct : op ≠ .construct) {s : State} {a : Int} (hs : s.mem.present a = true) :
    (hostStep op s).1.mem.present a = true :=
  hostStep_keeps (P := fun t => t.mem.present a = true) loadProgram_keeps_present
    step_keeps_present hreset hconstruct hs

theorem hostStep_trace_prefix {op : HostOp} (hreset : op ≠ .reset) (hconstruct : op ≠ .construct)
    (s : State) : s.trace <+: (hostStep op s).1.trace :=
  hostStep_keeps (P := fun t => s.trace <+: t.trace)
    (fun ht p => (loadProgram_trace p _).symm ▸ ht)
    (fun ht h => ht.trans (step_trace_prefix h)) hreset hconstruct List.prefix_rfl

/-- R200: an operation that runs no cycle writes neither AC nor PC. -/
theorem hostStep_ac_pc_of_no_cycle {op : HostOp} (hreset : op ≠ .reset)
    (hconstruct : op ≠ .construct) (hcycle : op ≠ .runCycle) (hrun : op ≠ .runProgram)
    (s : State) : (hostStep op s).1.ac = s.ac ∧ (hostStep op s).1.pc = s.pc := by
  cases op with
  | construct => exact absurd rfl hconstruct
  | reset => exact absurd rfl hreset
  | loadProgram p => exact ⟨loadProgram_ac p s, loadProgram_pc p s⟩
  | runCycle => exact absurd rfl hcycle
  | runProgram => exact absurd rfl hrun
  | snapshot _ | readTrace => exact ⟨rfl, rfl⟩

/-! A run that a HLT ends (R212) -/

/-- A loop that ends Halted within the bound is the whole run (R148). -/
theorem runProgram_eq_runLoop_of_isHalted {k : Nat} {s : State} (hk : k ≤ runBound s)
    (h : (runLoop k s).isHalted = true) :
    (runProgram s).1 = runLoop k s ∧ cyclesIn (runBound s) s = cyclesIn k s := by
  obtain ⟨more, hmore⟩ := Nat.exists_eq_add_of_le hk
  constructor
  · rw [runProgram, hmore, runLoop_add, runLoop_of_halted h]
  · rw [hmore, cyclesIn_add, cyclesIn_of_halted h, Nat.add_zero]

theorem runLoop_keeps_instr (k : Nat) (s : State) : (runLoop k s).mem.instr = s.mem.instr :=
  runLoop_keeps (P := fun t => t.mem.instr = s.mem.instr)
    (fun hP h => (step_keeps_instr h).trans hP) k rfl

/-- R130, R212: as long as the next `k` slots hold no HLT and the slot after them does, each of
`k + 1` calls executes a cycle, and the last of them sets the flag. -/
theorem run_of_first_hlt (k : Nat) {s : State} (hrun : s.halted = false)
    (hk : s.pc + k < Config.memSize)
    (hhlt : decode (s.mem.getInstruction (s.pc + k : Nat)) = .hlt)
    (hne : ∀ a : Nat, s.pc ≤ a → a < s.pc + k → decode (s.mem.getInstruction a) ≠ .hlt) :
    cyclesIn (k + 1) s = k + 1 ∧ (runLoop (k + 1) s).halted = true := by
  obtain ⟨hcycles, hflag⟩ := run_of_no_hlt k hrun hk.le hne
  have hpc : (runLoop k s).pc = s.pc + k := by rw [runLoop_pc, hcycles]
  have hs : (runLoop k s).isHalted = false :=
    (State.isHalted_eq_false_iff _).mpr ⟨hflag, hpc ▸ hk⟩
  have hnext : (runLoop k s).nextInstr = .hlt := by
    rw [State.nextInstr_eq, hpc, Memory.getInstruction_congr (runLoop_keeps_instr k s), hhlt]
  obtain ⟨t, ht⟩ := step_answers_next (runLoop k s)
  rw [cyclesIn_add, runLoop_add, cyclesIn_succ_of_running hs ht, runLoop_succ_of_running hs ht,
    hcycles]
  exact ⟨rfl, (step_sets_halted_iff hs ht).mpr hnext⟩

/-- R212: with the flag clear and the first HLT from PC on in slot `h`, the whole run is the cycles of
the slots up to `h`. -/
theorem runProgram_of_first_hlt {s : State} {h : Nat} (hrun : s.halted = false) (hpc : s.pc ≤ h)
    (hlt : h < Config.memSize) (hhlt : decode (s.mem.getInstruction h) = .hlt)
    (hne : ∀ a : Nat, s.pc ≤ a → a < h → decode (s.mem.getInstruction a) ≠ .hlt) :
    cyclesIn (runBound s) s = h + 1 - s.pc ∧
    (runProgram s).1.halted = true ∧ (runProgram s).1.pc = h + 1 := by
  obtain ⟨k, rfl⟩ := Nat.exists_eq_add_of_le hpc
  obtain ⟨hcycles, hflag⟩ := run_of_first_hlt k hrun hlt hhlt hne
  obtain ⟨hlast, hall⟩ := runProgram_eq_runLoop_of_isHalted (by rw [runBound]; omega)
    ((State.isHalted_iff _).mpr (.inl hflag))
  rw [hall, hlast, runLoop_pc, hcycles]
  exact ⟨by omega, hflag, rfl⟩

/-! The obligations -/

/-- Settles O19: the state after reset is the constructed one whatever stood before; what loads and
steps keep, the other operations keep. -/
theorem onlyResetUndoes : Obligations.OnlyResetUndoes := by
  refine ⟨fun s => ⟨rfl, resetMachine_eq_reset s, rfl⟩, fun op s hreset hconstruct => ?_⟩
  obtain ⟨more, hmore⟩ := hostStep_trace_prefix hreset hconstruct s
  exact ⟨hostStep_keeps_halted hreset hconstruct, ⟨more, hmore.symm⟩,
    fun _ => hostStep_keeps_present hreset hconstruct,
    fun hcycle hrun => hostStep_ac_pc_of_no_cycle hreset hconstruct hcycle hrun s⟩

/-- Settles O46: the bound on any run, and the run to the first HLT taken at PC 0. -/
theorem firstHltEndsTheRun : Obligations.FirstHltEndsTheRun := fun p =>
  ⟨cyclesIn_le _ (loadProgram p construct), fun _ hlt hhlt hne =>
    runProgram_of_first_hlt (s := loadProgram p construct) rfl (Nat.zero_le _) hlt hhlt
      (fun a _ ha => hne a ha)⟩

/-- Settles O2: each reset gives the one reset state. -/
theorem resetTwiceIsResetOnce : Obligations.ResetTwiceIsResetOnce := fun s =>
  (resetMachine_eq_reset _).trans (resetMachine_eq_reset s).symm

end Sys2Proof.Machine
end

section
/-! PROOFS. Texts as tokens (R62) and the patterns of the opcode table (R79). Each pattern says how the
token list of a text begins, and `decode` reads nothing but that list, so a row of the table is one
case of the token list. -/

namespace Sys2Proof

/-- Settles O44: the canonical text of each form decodes to it. -/
theorem decodeOfEncode : Obligations.DecodeOfEncode := fun _ => decode_encode

/-! Pieces of text (R62) -/

theorem startsToken_append_token {tok : Text} (h : isToken tok) (rest : Text) :
    startsToken (tok ++ rest) = true := by
  obtain ⟨hne, hchars⟩ := h
  obtain ⟨c, cs, rfl⟩ := List.exists_cons_of_ne_nil hne
  simp [startsToken, hchars c List.mem_cons_self]

theorem startsToken_append_blank {w : Text} (h : blank w = true) (hne : w ≠ []) (rest : Text) :
    startsToken (w ++ rest) = false := by
  obtain ⟨c, cs, rfl⟩ := List.exists_cons_of_ne_nil hne
  rw [blank_cons, Bool.and_eq_true] at h
  simp [startsToken, h.1]

theorem startsToken_of_blank {w : Text} (h : blank w = true) : startsToken w = false := by
  rcases w with _ | ⟨c, cs⟩
  · rfl
  · rw [← List.append_nil (c :: cs), startsToken_append_blank h (List.cons_ne_nil c cs)]

/-- The whitespace behind a token leads the text of the pieces that follow. -/
theorem spread_cons (lead : Text) (p : Text × Text) (ps : List (Text × Text)) :
    spread lead (p :: ps) = lead ++ (p.1 ++ spread p.2 ps) := by
  simp [spread]

theorem spread_nil (lead : Text) : spread lead [] = lead := List.append_nil lead

/-- A first piece is proper when its token is one and its gap, which only the last piece may leave
empty, properly leads the rest. -/
theorem properPieces_cons (lead : Text) (p : Text × Text) (ps : List (Text × Text)) :
    properPieces lead (p :: ps) ↔
      blank lead = true ∧ isToken p.1 ∧ properPieces p.2 ps ∧ (ps ≠ [] → p.2 ≠ []) := by
  unfold properPieces
  rcases ps with _ | ⟨q, qs⟩
  · simp
  · simp only [List.forall_mem_cons, List.dropLast_cons_cons]
    tauto

/-- The text of proper pieces starts with a token exactly when there is one and nothing leads it. -/
theorem startsToken_spread {lead : Text} {ps : List (Text × Text)} (h : properPieces lead ps) :
    startsToken (spread lead ps) = false ↔ (ps ≠ [] → lead ≠ []) := by
  have hlead : blank lead = true := h.1
  rcases hl : lead with _ | ⟨c, cs⟩
  · rcases ps with _ | ⟨p, ps⟩
    · simp [spread_nil, startsToken]
    · obtain ⟨-, htok, -⟩ := (properPieces_cons _ _ _).mp h
      simp [spread_cons, startsToken_append_token htok]
  · rw [← hl, spread, startsToken_append_blank hlead (by simp [hl])]
    simp [hl]

theorem tokens_spread {lead : Text} {ps : List (Text × Text)} (h : properPieces lead ps) :
    tokens (spread lead ps) = ps.map Prod.fst := by
  induction ps generalizing lead with
  | nil => rw [spread_nil, (tokens_eq_nil_iff lead).mpr h.1, List.map_nil]
  | cons p ps ih =>
    obtain ⟨hlead, ⟨hne, hchars⟩, hps, hgap⟩ := (properPieces_cons _ _ _).mp h
    rw [spread_cons, tokens_append_blank hlead,
      tokens_append_token hne hchars ((startsToken_spread hps).mpr hgap), ih hps, List.map_cons]

theorem exists_properPieces (t : Text) :
    ∃ lead pieces, properPieces lead pieces ∧ spread lead pieces = t := by
  induction hn : t.length using Nat.strongRecOn generalizing t with
  | _ n ih =>
    rcases hb : blank t with _ | _
    · obtain ⟨w, tok, rest, rfl, hw, hne, hchars, hrest⟩ := exists_firstToken hb
      have hlt : rest.length < n := by
        have := List.length_pos_of_ne_nil hne
        simp only [List.length_append] at hn
        omega
      obtain ⟨gap, ps, hps, rfl⟩ := ih _ hlt rest rfl
      refine ⟨w, (tok, gap) :: ps, (properPieces_cons _ _ _).mpr ?_, ?_⟩
      · exact ⟨hw, ⟨hne, hchars⟩, hps, (startsToken_spread hps).mp hrest⟩
      · rw [spread_cons, List.append_assoc]
    · exact ⟨t, [], by simp [properPieces, hb], spread_nil t⟩

/-- Settles O22: induction on the pieces, and cutting off one token after the other. -/
theorem tokensAreTheMaximalRuns : Obligations.TokensAreTheMaximalRuns :=
  ⟨fun _ _ => tokens_spread, exists_properPieces⟩

/-! The patterns through the tokens (R79) -/

/-- How a text with a first token is made. -/
theorem tokens_eq_cons_iff {t op : Text} {toks : List Text} :
    tokens t = op :: toks ↔
      ∃ w rest, t = w ++ op ++ rest ∧ blank w = true ∧ isToken op ∧ startsToken rest = false ∧
        tokens rest = toks := by
  constructor
  · intro h
    have hb : blank t = false := by
      rw [← Bool.not_eq_true, ← tokens_eq_nil_iff, h]
      simp
    obtain ⟨w, tok, rest, rfl, hw, hne, hchars, hrest⟩ := exists_firstToken hb
    rw [List.append_assoc, tokens_append_blank hw, tokens_append_token hne hchars hrest,
      List.cons.injEq] at h
    obtain ⟨rfl, rfl⟩ := h
    exact ⟨w, rest, rfl, hw, ⟨hne, hchars⟩, hrest, rfl⟩
  · rintro ⟨w, rest, rfl, hw, ⟨hne, hchars⟩, hrest, rfl⟩
    rw [List.append_assoc, tokens_append_blank hw, tokens_append_token hne hchars hrest]

theorem opcodeShape_iff {t op : Text} :
    isToken op ∧ opcodeShape t op ↔ ∃ rest, tokens t = op :: rest := by
  simp only [tokens_eq_cons_iff, opcodeShape]
  constructor
  · rintro ⟨hop, w, rest, rfl, hw, hrest⟩
    exact ⟨_, w, rest, rfl, hw, hop, hrest, rfl⟩
  · rintro ⟨_, w, rest, rfl, hw, hop, hrest, -⟩
    exact ⟨hop, w, rest, rfl, hw, hrest⟩

theorem oneTokenShape_iff {t op : Text} :
    isToken op ∧ oneTokenShape t op ↔ tokens t = [op] := by
  simp only [tokens_eq_cons_iff, oneTokenShape, tokens_eq_nil_iff]
  constructor
  · rintro ⟨hop, w, w', rfl, hw, hw'⟩
    exact ⟨w, w', rfl, hw, hop, startsToken_of_blank hw', hw'⟩
  · rintro ⟨w, w', rfl, hw, hop, -, hw'⟩
    exact ⟨hop, w, w', rfl, hw, hw'⟩

theorem operandShape_iff {t op num : Text} :
    isToken op ∧ isToken num ∧ operandShape t op num ↔ ∃ more, tokens t = op :: num :: more := by
  constructor
  · rintro ⟨hop, hnum, w, w', rest, rfl, hw, hw', hne, hrest⟩
    refine ⟨tokens rest, tokens_eq_cons_iff.mpr
      ⟨w, w' ++ num ++ rest, by simp only [List.append_assoc], hw, hop, ?_, ?_⟩⟩
    · rw [List.append_assoc, startsToken_append_blank hw' hne]
    · exact tokens_eq_cons_iff.mpr ⟨w', rest, rfl, hw', hnum, hrest, rfl⟩
  · rintro ⟨more, h⟩
    obtain ⟨w, behind, rfl, hw, hop, hbehind, htoks⟩ := tokens_eq_cons_iff.mp h
    obtain ⟨w', rest, rfl, hw', hnum, hrest, -⟩ := tokens_eq_cons_iff.mp htoks
    refine ⟨hop, hnum, w, w', rest, by simp only [List.append_assoc], hw, hw', ?_, hrest⟩
    rintro rfl
    rw [List.nil_append, startsToken_append_token hnum] at hbehind
    exact Bool.false_ne_true hbehind.symm

/-! A text whose upper case is a token is one (R61, R63) -/

theorem isSpace_eq_false_of_gt {c : Char} (h : 0x20 < c.toNat) : isSpace c = false := by
  simp only [isSpace, Bool.or_eq_false_iff, beq_eq_false_iff_ne, Bool.and_eq_false_iff,
    decide_eq_false_iff_not]
  omega

theorem isSpace_upperChar (c : Char) : isSpace (upperChar c) = isSpace c := by
  unfold upperChar
  split
  · next h =>
    have hval : (Char.ofNat (c.toNat - 0x20)).toNat = c.toNat - 0x20 := by
      rw [Char.toNat_ofNat, if_pos (.inl (by omega))]
    rw [isSpace_eq_false_of_gt (by omega), isSpace_eq_false_of_gt (by omega)]
  · rfl

theorem isToken_upper (t : Text) : isToken (upper t) ↔ isToken t := by
  simp [isToken, upper, isSpace_upperChar]

/-- An opcode token that spells a mnemonic in any letter case is a token. -/
theorem isToken_of_upper_eq {op mn : Text} (h : upper op = mn) (hmn : isToken mn) : isToken op :=
  (isToken_upper op).mp (h ▸ hmn)

theorem isToken_of_validateAddress {num : Text} {m a : Int}
    (h : validateAddress num m = .ok a) : isToken num :=
  token_of_intParse (validateAddress_eq_ok.mp h).1

/-! The rows of the table as cases of the token list (R68) -/

/-- Everything `decode` can answer, each value with the token lists it stands for. -/
theorem decode_eq_iff {t : Text} {i : Instr} :
    decode t = i ↔
      (tokens t = [] ∧ .empty = i) ∨
      (∃ op rest, tokens t = op :: rest ∧ upper op = mnHlt ∧ .hlt = i) ∨
      (∃ op, tokens t = [op] ∧ upper op ≠ mnHlt ∧ .missingOperand = i) ∨
      (∃ op bad more r, tokens t = op :: bad :: more ∧ upper op ≠ mnHlt ∧
        validateAddress bad Config.addrLimit = .error r ∧ .invalidAddress r = i) ∨
      (∃ op num more a, tokens t = op :: num :: more ∧ upper op ≠ mnHlt ∧
        validateAddress num Config.addrLimit = .ok a ∧ decodeOpcode (upper op) a = i) := by
  constructor
  · rintro rfl
    rcases htok : tokens t with _ | ⟨op, rest⟩
    · exact .inl ⟨rfl, (decode_of_blank ((tokens_eq_nil_iff t).mp htok)).symm⟩
    by_cases hop : upper op = mnHlt
    · exact .inr (.inl ⟨op, rest, rfl, hop, (decode_hlt htok hop).symm⟩)
    rcases rest with _ | ⟨num, more⟩
    · exact .inr (.inr (.inl ⟨op, rfl, hop, (decode_missingOperand htok hop).symm⟩))
    rcases hnum : validateAddress num Config.addrLimit with r | a
    · exact .inr (.inr (.inr (.inl
        ⟨op, num, more, r, rfl, hop, hnum, (decode_invalidAddress htok hop hnum).symm⟩)))
    · exact .inr (.inr (.inr (.inr
        ⟨op, num, more, a, rfl, hop, hnum, (decode_operand htok hop hnum).symm⟩)))
  · rintro (⟨htok, rfl⟩ | ⟨op, rest, htok, hop, rfl⟩ | ⟨op, htok, hop, rfl⟩ |
      ⟨op, bad, more, r, htok, hop, hbad, rfl⟩ | ⟨op, num, more, a, htok, hop, hnum, rfl⟩)
    · exact decode_of_blank ((tokens_eq_nil_iff t).mp htok)
    · exact decode_hlt htok hop
    · exact decode_missingOperand htok hop
    · exact decode_invalidAddress htok hop hbad
    · exact decode_operand htok hop hnum

/-- The dispatch answers a form with an operand, so none of the others. -/
theorem decodeOpcode_ne {i : Instr} (hi : i.address = none) (op : Text) (a : Int) :
    decodeOpcode op a ≠ i := by
  rintro rfl
  cases (decodeOpcode_address op a).symm.trans hi

theorem decode_eq_empty_iff {t : Text} : decode t = .empty ↔ blank t = true := by
  simp [decode_eq_iff, decodeOpcode_ne (i := .empty) rfl, tokens_eq_nil_iff]

theorem decode_eq_hlt_iff {t : Text} :
    decode t = .hlt ↔ ∃ op, upper op = mnHlt ∧ ∃ rest, tokens t = op :: rest := by
  simp [decode_eq_iff, decodeOpcode_ne (i := .hlt) rfl, and_comm]

theorem decode_eq_missingOperand_iff {t : Text} :
    decode t = .missingOperand ↔ ∃ op, upper op ≠ mnHlt ∧ tokens t = [op] := by
  simp [decode_eq_iff, decodeOpcode_ne (i := .missingOperand) rfl, and_comm]

theorem decode_eq_invalidAddress_iff {t : Text} {r : Reason} :
    decode t = .invalidAddress r ↔ ∃ op bad, upper op ≠ mnHlt ∧
      (∃ more, tokens t = op :: bad :: more) ∧
      validateAddress bad Config.addrLimit = .error r := by
  simp [decode_eq_iff, decodeOpcode_ne (i := .invalidAddress r) rfl, and_left_comm]

/-- The five forms with an operand: the dispatch on the opcode token answers them. -/
theorem decode_eq_iff_of_address {t : Text} {i : Instr} {a : Int} (hi : i.address = some a) :
    decode t = i ↔ ∃ op num, (upper op ≠ mnHlt ∧ decodeOpcode (upper op) a = i) ∧
      (∃ more, tokens t = op :: num :: more) ∧
      validateAddress num Config.addrLimit = .ok a := by
  rw [decode_eq_iff]
  constructor
  · rintro (⟨-, rfl⟩ | ⟨_, _, -, -, rfl⟩ | ⟨_, -, -, rfl⟩ | ⟨_, _, _, _, -, -, -, rfl⟩ |
      ⟨op, num, more, b, htok, hop, hnum, rfl⟩)
    · cases hi
    · cases hi
    · cases hi
    · cases hi
    · rw [decodeOpcode_address, Option.some.injEq] at hi
      exact ⟨op, num, ⟨hop, hi ▸ rfl⟩, ⟨more, htok⟩, hi ▸ hnum⟩
  · rintro ⟨op, num, ⟨hop, hi⟩, ⟨more, htok⟩, hnum⟩
    exact .inr (.inr (.inr (.inr ⟨op, num, more, a, htok, hop, hnum, hi⟩)))

/-! Which opcode tokens the dispatch answers with which form -/

theorem decodeOpcode_eq_load_iff {op : Text} {a : Int} :
    decodeOpcode op a = .load a ↔ op = mnLoad := by
  unfold decodeOpcode
  split_ifs <;> simp_all

theorem decodeOpcode_eq_store_iff {op : Text} {a : Int} :
    decodeOpcode op a = .store a ↔ op = mnStore := by
  unfold decodeOpcode
  split_ifs <;> simp_all [mnLoad, mnStore]

theorem decodeOpcode_eq_add_iff {op : Text} {a : Int} :
    decodeOpcode op a = .add a ↔ op = mnAdd := by
  unfold decodeOpcode
  split_ifs <;> simp_all [mnLoad, mnStore, mnAdd]

theorem decodeOpcode_eq_sub_iff {op : Text} {a : Int} :
    decodeOpcode op a = .sub a ↔ op = mnSub := by
  unfold decodeOpcode
  split_ifs <;> simp_all [mnLoad, mnStore, mnAdd, mnSub]

theorem decodeOpcode_eq_unknown_iff {op : Text} {a : Int} :
    decodeOpcode op a = .unknown a ↔ op ∉ [mnLoad, mnStore, mnAdd, mnSub] := by
  refine ⟨fun h hmem => ?_, fun h => decodeOpcode_of_not_mem h a⟩
  simp only [List.mem_cons, List.not_mem_nil, or_false] at hmem
  rcases hmem with rfl | rfl | rfl | rfl <;> cases h

/-- The row of a mnemonic: its opcode token in any letter case, and an operand that is accepted. -/
theorem decode_eq_iff_of_mnemonic {t mn : Text} {i : Instr} {a : Int} (hi : i.address = some a)
    (hmn : isToken mn) (hne : mn ≠ mnHlt) (hrow : ∀ op, decodeOpcode op a = i ↔ op = mn) :
    decode t = i ↔ ∃ op num, upper op = mn ∧ operandShape t op num ∧
      validateAddress num Config.addrLimit = .ok a := by
  simp only [decode_eq_iff_of_address hi, hrow, ← operandShape_iff]
  constructor
  · rintro ⟨op, num, ⟨-, hop⟩, ⟨-, -, hshape⟩, hnum⟩
    exact ⟨op, num, hop, hshape, hnum⟩
  · rintro ⟨op, num, rfl, hshape, hnum⟩
    exact ⟨op, num, ⟨hne, rfl⟩,
      ⟨(isToken_upper op).mp hmn, isToken_of_validateAddress hnum, hshape⟩, hnum⟩

theorem isToken_of_all {t : Text} (hne : t ≠ []) (h : t.all (fun c => !isSpace c) = true) :
    isToken t :=
  ⟨hne, by simpa using h⟩

theorem isToken_mnHlt : isToken mnHlt := isToken_of_all (by decide) (by decide)
theorem isToken_mnLoad : isToken mnLoad := isToken_of_all (by decide) (by decide)
theorem isToken_mnStore : isToken mnStore := isToken_of_all (by decide) (by decide)
theorem isToken_mnAdd : isToken mnAdd := isToken_of_all (by decide) (by decide)
theorem isToken_mnSub : isToken mnSub := isToken_of_all (by decide) (by decide)

/-- Settles O27: each row is a case of the token list, and its pattern says that the list is so. -/
theorem opcodeTableRowsDecideDecoding : Obligations.OpcodeTableRowsDecideDecoding := by
  refine fun t => ⟨?_, ?_, ?_, fun r => ?_, fun a => ⟨?_, ?_, ?_, ?_, ?_⟩⟩
  · rw [decode_eq_empty_iff, blank, List.all_eq_true]
  · simp only [decode_eq_hlt_iff, ← opcodeShape_iff]
    refine exists_congr fun op => and_congr_right fun hop => and_iff_right ?_
    exact isToken_of_upper_eq hop isToken_mnHlt
  · simp only [decode_eq_missingOperand_iff, ← oneTokenShape_iff]
    exact exists_congr fun op => and_left_comm
  · simp only [decode_eq_invalidAddress_iff, ← operandShape_iff]
    refine exists_congr fun op => exists_congr fun bad => ?_
    tauto
  · exact decode_eq_iff_of_mnemonic rfl isToken_mnLoad (by decide) fun _ => decodeOpcode_eq_load_iff
  · exact decode_eq_iff_of_mnemonic rfl isToken_mnStore (by decide) fun _ => decodeOpcode_eq_store_iff
  · exact decode_eq_iff_of_mnemonic rfl isToken_mnAdd (by decide) fun _ => decodeOpcode_eq_add_iff
  · exact decode_eq_iff_of_mnemonic rfl isToken_mnSub (by decide) fun _ => decodeOpcode_eq_sub_iff
  · simp only [decode_eq_iff_of_address (i := .unknown a) rfl, decodeOpcode_eq_unknown_iff,
      ← operandShape_iff]
    refine exists_congr fun op => exists_congr fun num => ?_
    constructor
    · rintro ⟨⟨hne, hnot⟩, ⟨hop, -, hshape⟩, hnum⟩
      exact ⟨hop, fun h => (List.mem_cons.mp h).elim hne hnot, hshape, hnum⟩
    · rintro ⟨hop, hnot, hshape, hnum⟩
      exact ⟨not_or.mp (mt List.mem_cons.mpr hnot),
        ⟨hop, isToken_of_validateAddress hnum, hshape⟩, hnum⟩

end Sys2Proof
end

section
/-! PROOFS. Numerals (R32, R67) and the validator (R66, R145). `digitsValue` answers exactly on digit
strings, with the left fold of the digits; what INT_PARSE accepts is read off that. -/

namespace Sys2Proof

/-! The value of a digit string (R67) -/

/-- Every character is a decimal digit. -/
def isDigits (ds : Text) : Prop := ∀ c ∈ ds, '0'.toNat ≤ c.toNat ∧ c.toNat ≤ '9'.toNat

/-- The value in base ten of digits read on from the value `acc`. -/
def digitsFold (acc : Int) (ds : Text) : Int :=
  ds.foldl (fun n c => 10 * n + ((c.toNat : Int) - '0'.toNat)) acc

theorem digitsValue_of_isDigits {t : Text} (h : isDigits t) (acc : Nat) :
    ∃ n : Nat, digitsValue acc t = some n ∧ (n : Int) = digitsFold acc t := by
  induction t generalizing acc with
  | nil => exact ⟨acc, rfl, rfl⟩
  | cons c cs ih =>
    obtain ⟨hc, hcs⟩ := List.forall_mem_cons.mp h
    have hdigit : digitValue c = some (c.toNat - '0'.toNat) := digitValue_eq_some.mpr ⟨hc, rfl⟩
    have hacc : ((10 * acc + (c.toNat - '0'.toNat) : Nat) : Int)
        = 10 * (acc : Int) + ((c.toNat : Int) - '0'.toNat) := by
      rw [Nat.cast_add, Nat.cast_mul, Nat.cast_sub hc.1, Nat.cast_ofNat]
    rw [digitsValue, hdigit, digitsFold, List.foldl_cons, ← hacc]
    exact ih hcs _

theorem exists_natParse_iff {ds : Text} {v : Int} :
    (∃ n : Nat, natParse ds = some n ∧ v = n) ↔
      ds ≠ [] ∧ isDigits ds ∧ v = digitsFold 0 ds := by
  by_cases hne : ds = []
  · simp [hne, natParse]
  rw [natParse_of_ne_nil hne]
  constructor
  · rintro ⟨n, hn, rfl⟩
    have hds := digits_of_digitsValue hn
    obtain ⟨m, hm, hval⟩ := digitsValue_of_isDigits hds 0
    obtain rfl : n = m := Option.some.inj (hn.symm.trans hm)
    exact ⟨hne, hds, hval⟩
  · rintro ⟨-, hds, rfl⟩
    obtain ⟨n, hn, hval⟩ := digitsValue_of_isDigits hds 0
    exact ⟨n, hn, hval.symm⟩

/-- A numeral is a natural number, or the sign before one. -/
theorem intParse_eq_some_iff {t : Text} {v : Int} :
    intParse t = some v ↔
      ∃ ds, (t = ds ∧ ∃ n : Nat, natParse ds = some n ∧ v = n) ∨
        (t = '-' :: ds ∧ ∃ n : Nat, natParse ds = some n ∧ -v = n) := by
  constructor
  · intro h
    rcases t with _ | ⟨c, cs⟩
    · cases h
    by_cases hc : c = '-'
    · rw [hc, intParse_minus] at h
      obtain ⟨n, hn, rfl⟩ := Option.map_eq_some_iff.mp h
      exact ⟨cs, .inr ⟨hc ▸ rfl, n, hn, neg_neg _⟩⟩
    · rw [intParse, if_neg hc] at h
      obtain ⟨n, hn, rfl⟩ := Option.map_eq_some_iff.mp h
      exact ⟨c :: cs, .inl ⟨rfl, n, hn, rfl⟩⟩
  · rintro ⟨ds, ⟨rfl, n, hn, rfl⟩ | ⟨rfl, n, hn, hv⟩⟩
    · exact intParse_of_natParse hn
    · rw [intParse_minus, hn, Option.map_some, ← hv, neg_neg]

/-- Settles O23: the two kinds of numeral, each with the value of its digit string. -/
theorem intParseIsTheStrictGrammar : Obligations.IntParseIsTheStrictGrammar := by
  intro t v
  refine intParse_eq_some_iff.trans (exists_congr fun ds => ?_)
  rw [exists_natParse_iff, exists_natParse_iff, neg_eq_iff_eq_neg]
  show _ ↔ ds ≠ [] ∧ isDigits ds ∧
    ((t = ds ∧ v = digitsFold 0 ds) ∨ (t = '-' :: ds ∧ v = -digitsFold 0 ds))
  tauto

/-! The numeral of a number (R32) -/

theorem isDigits_toDigits (n : Nat) : isDigits (Nat.toDigits 10 n) :=
  digits_of_digitsValue (digitsValue_toDigits n)

theorem digitChar_ge_one {d : Nat} (hpos : 0 < d) (hlt : d < 10) : '1'.toNat ≤ d.digitChar.toNat := by
  interval_cases d <;> decide

/-- The numeral of a positive number has no leading zero. -/
theorem toDigits_head {n : Nat} (hpos : 0 < n) :
    ∃ d ds, Nat.toDigits 10 n = d :: ds ∧ '1'.toNat ≤ d.toNat := by
  induction n using Nat.strongRecOn with
  | _ n ih =>
    by_cases hn : n < 10
    · exact ⟨n.digitChar, [], Nat.toDigits_of_lt_base hn, digitChar_ge_one hpos hn⟩
    · obtain ⟨d, ds, hds, hd⟩ := ih (n / 10) (by omega) (by omega)
      refine ⟨d, ds ++ [(n % 10).digitChar], ?_, hd⟩
      rw [Nat.toDigits_of_base_le (by decide) (Nat.not_lt.mp hn), hds, List.cons_append]

theorem dec_of_nonneg {z : Int} (h : 0 ≤ z) : dec z = Nat.toDigits 10 z.natAbs :=
  if_neg (Int.not_lt.mpr h)

theorem dec_of_neg {z : Int} (h : z < 0) : dec z = '-' :: dec (-z) := by
  rw [dec_of_nonneg (z := -z) (by omega), Int.natAbs_neg, dec, if_pos h]

/-- Settles O24: by the sign; what is written parses back by the law of the numerals. -/
theorem decIsCanonical : Obligations.DecIsCanonical := by
  refine ⟨rfl, fun z hz => ?_, fun z => dec_of_neg, intParse_dec⟩
  obtain ⟨d, ds, hds, hd⟩ := toDigits_head (Int.natAbs_pos.mpr hz.ne')
  exact ⟨d, ds, (dec_of_nonneg hz.le).trans hds, hd, hds ▸ isDigits_toDigits z.natAbs⟩

/-! The validator (R66, R145) -/

theorem validateAddress_of_intParse_none {t : Text} (h : intParse t = none) (m : Int) :
    validateAddress t m = .error .invalidInteger := by
  simp [validateAddress, h]

theorem validateDataValue_of_intParse_none {t : Text} (h : intParse t = none) :
    validateDataValue t = .error .invalidInteger := by
  simp [validateDataValue, h]

theorem validateDataValue_of_intParse {t : Text} {v : Int} (h : intParse t = some v) :
    validateDataValue t = .ok v := by
  simp [validateDataValue, h]

theorem validateAddress_outOfRange {t : Text} {m v : Int} (h : intParse t = some v)
    (hv : v < 0 ∨ m ≤ v) : validateAddress t m = .error .outOfRange := by
  simp [validateAddress, h, hv]

/-- R8, R9: the decoder's bound is the size of the memory (D7, D8). -/
theorem addrLimit_eq_memSize : Config.addrLimit = Config.memSize := rfl

/-- Settles O5: one lemma for each answer of the two functions. -/
theorem validatorsCheckParseThenRange : Obligations.ValidatorsCheckParseThenRange := by
  refine ⟨addrLimit_eq_memSize, rfl, fun r => ?_,
    fun t m => ⟨fun h => ?_, fun v h => ⟨?_, ?_, ?_⟩⟩⟩
  · cases r
    · exact .inl rfl
    · exact .inr rfl
  · exact ⟨validateAddress_of_intParse_none h m, validateDataValue_of_intParse_none h⟩
  · exact validateDataValue_of_intParse h
  · exact validateAddress_outOfRange h
  · exact fun hv => validateAddress_eq_ok.mpr ⟨h, hv⟩

end Sys2Proof
end

section
/-! PROOFS. Non-interference (R25, R123, R132, R188). Two machines run side by side: what a step reads
of the one it reads of the other, so the relation between them is kept by every pair of steps. -/

namespace Sys2Proof.Machine

/-- A relation that every pair of steps keeps, every pair of runs of one length keeps. -/
theorem core_run_keeps_rel {R : State → State → Prop}
    (hstep : ∀ {s t s' t'}, R s t → step s = .next s' → step t = .next t' → R s' t')
    (k : Nat) {s t : State} (hR : R s t) :
    ∃ s' t', Host.Core.run core k s = .next s' ∧ Host.Core.run core k t = .next t' ∧ R s' t' := by
  induction k generalizing s t with
  | zero => exact ⟨s, t, core_run_zero s, core_run_zero t, hR⟩
  | succ k ih =>
    obtain ⟨u, hu⟩ := step_answers_next s
    obtain ⟨v, hv⟩ := step_answers_next t
    rw [core_run_succ hu, core_run_succ hv]
    exact ih (hstep hR hu hv)

theorem State.isHalted_congr {s t : State} (hhalted : s.halted = t.halted) (hpc : s.pc = t.pc) :
    s.isHalted = t.isHalted := by
  rw [State.isHalted, hhalted, hpc, State.isHalted]

/-! Control (R123, R132) -/

theorem State.SameControl.nextInstr_eq {s t : State} (h : s.SameControl t) :
    s.nextInstr = t.nextInstr := by
  rw [State.nextInstr, h.pc, Memory.getInstruction_congr h.instr, State.nextInstr]

theorem State.SameControl.fetch {s t : State} (h : s.SameControl t) :
    (fetch s).SameControl (fetch t) where
  pc := congrArg (· + 1) h.pc
  ir := by rw [fetch_ir, h.pc, Memory.getInstruction_congr h.instr, fetch_ir]
  mar := h.pc
  mdr := by rw [fetch_mdr, h.pc, Memory.getInstruction_congr h.instr, fetch_mdr]
  halted := h.halted
  instr := h.instr

/-- R123, R132: no meaning lets data into the control. -/
theorem State.SameControl.exec {i : Instr} {s t s' t' : State} (h : s.SameControl t)
    (hs : exec i s = .next s') (ht : exec i t = .next t') : s'.SameControl t' := by
  obtain ⟨hspc, hsir, hsmar, hsmdr⟩ := exec_keeps_fetch_registers hs
  obtain ⟨htpc, htir, htmar, htmdr⟩ := exec_keeps_fetch_registers ht
  exact {
    pc := by rw [hspc, h.pc, htpc]
    ir := by rw [hsir, h.ir, htir]
    mar := by rw [hsmar, h.mar, htmar]
    mdr := by rw [hsmdr, h.mdr, htmdr]
    halted := by rw [Bool.eq_iff_iff, exec_halted_iff hs, h.halted, exec_halted_iff ht]
    instr := by rw [exec_keeps_instr hs, h.instr, exec_keeps_instr ht] }

theorem State.SameControl.step {s t s' t' : State} (h : s.SameControl t)
    (hs : step s = .next s') (ht : step t = .next t') : s'.SameControl t' := by
  have hgate : s.isHalted = t.isHalted := State.isHalted_congr h.halted h.pc
  rcases step_cases hs with ⟨hsh, rfl⟩ | ⟨hsr, hs⟩
  · rw [step_of_halted (hgate ▸ hsh)] at ht
    cases ht
    exact h
  · rw [step_of_running (hgate ▸ hsr), ← h.nextInstr_eq] at ht
    exact h.fetch.exec hs ht

/-- Settles O47: every pair of steps keeps `State.SameControl`. -/
theorem controlIsIndependentOfData : Obligations.ControlIsIndependentOfData := fun k _ _ h =>
  core_run_keeps_rel State.SameControl.step k h

/-! The trace and the old latches (R25, R188) -/

/-- The two machines compute the same, and since they held the traces `p` and `q` they have appended
the same lines. -/
structure State.SameEffect (p q : List TraceEntry) (s t : State) : Prop where
  ac : s.ac = t.ac
  pc : s.pc = t.pc
  halted : s.halted = t.halted
  mem : s.mem = t.mem
  trace : ∃ more, s.trace = p ++ more ∧ t.trace = q ++ more

/-- R92: the fetch overwrites the latches, so what is left between the machines is the trace. -/
theorem fetch_eq_of_sameEffect {p q : List TraceEntry} {s t : State} (h : s.SameEffect p q t) :
    fetch t = { fetch s with trace := t.trace } := by
  obtain ⟨hac, hpc, hhalted, hmem, -⟩ := h
  rw [fetch_eq, fetch_eq, hac, hpc, hhalted, hmem]

/-- R188: no meaning reads the trace; it appends to whatever stands there. -/
theorem exec_with_trace {i : Instr} {s s' : State} (h : exec i s = .next s') :
    ∃ more, s'.trace = s.trace ++ more ∧
      ∀ tr, exec i { s with trace := tr } = .next { s' with trace := tr ++ more } := by
  cases i with
  | empty => cases h; exact ⟨[], (List.append_nil _).symm, fun tr => by rw [List.append_nil]; rfl⟩
  | _ => cases h; exact ⟨_, rfl, fun _ => rfl⟩

theorem State.SameEffect.step {p q : List TraceEntry} {s t s' t' : State} (h : s.SameEffect p q t)
    (hs : step s = .next s') (ht : step t = .next t') : s'.SameEffect p q t' := by
  have hgate : s.isHalted = t.isHalted := State.isHalted_congr h.halted h.pc
  rcases step_cases hs with ⟨hsh, rfl⟩ | ⟨hsr, hs⟩
  · rw [step_of_halted (hgate ▸ hsh)] at ht
    cases ht
    exact h
  · have hnext : t.nextInstr = s.nextInstr := by
      rw [State.nextInstr, ← h.pc, ← h.mem, State.nextInstr]
    obtain ⟨more, hmore, hexec⟩ := exec_with_trace hs
    obtain ⟨old, hsold, htold⟩ := h.trace
    rw [step_of_running (hgate ▸ hsr), hnext, fetch_eq_of_sameEffect h, hexec] at ht
    cases ht
    refine ⟨rfl, rfl, rfl, rfl, old ++ more, ?_, ?_⟩
    · rw [hmore, fetch_trace, hsold, List.append_assoc]
    · rw [htold, List.append_assoc]

/-- Settles O43: every pair of steps keeps `State.SameEffect`, from the traces of the start. -/
theorem traceAndLatchesAreNotObserved : Obligations.TraceAndLatchesAreNotObserved := by
  intro k s t hac hpc hhalted hmem
  have h : s.SameEffect s.trace t.trace t :=
    ⟨hac, hpc, hhalted, hmem, [], (List.append_nil _).symm, (List.append_nil _).symm⟩
  obtain ⟨s', t', hs, ht, hac', hpc', hhalted', hmem', more, hsmore, htmore⟩ :=
    core_run_keeps_rel State.SameEffect.step k h
  exact ⟨s', t', more, hs, ht, hac', hpc', hhalted', hmem', hsmore, htmore⟩

end Sys2Proof.Machine
end

section
/-! PROOFS. The invariants every step keeps (R35, R147). -/

namespace Sys2Proof.Machine

/-- Settles O18: PC is 0 at reset, so the clauses on a fetch say nothing and the others are read off. -/
theorem invariantAtReset : Obligations.InvariantAtReset := State.inv_reset

/-- Settles O49: a closed gate changes nothing, and an executed cycle establishes each clause. -/
theorem stepKeepsInvariant : Obligations.StepKeepsInvariant := fun _ _ => step_keeps_inv

/-! Operand validation (R147) -/

/-- What the validation of a text refuses (R147; log 26). -/
theorem textValid_iff (t : Text) :
    textValid t = true ↔ decode t ≠ .missingOperand ∧ ∀ r, decode t ≠ .invalidAddress r := by
  unfold textValid
  cases decode t <;> simp

/-- R94: only the two operand errors log a line that says so. -/
theorem exec_appends_no_operandError {i : Instr} {s t : State} (h : exec i s = .next t)
    (hmissing : i ≠ .missingOperand) (hinvalid : ∀ r, i ≠ .invalidAddress r) :
    ∀ e ∈ t.trace, e ∈ s.trace ∨ e.isOperandError = false := by
  cases i with
  | missingOperand => exact absurd rfl hmissing
  | invalidAddress r => exact absurd rfl (hinvalid r)
  | empty => cases h; exact fun _ => .inl
  | _ =>
    cases h
    refine fun e he => (List.mem_append.mp he).imp_right fun hnew => ?_
    rw [List.mem_singleton.mp hnew]
    rfl

theorem State.operandsValid_reset : State.reset.OperandsValid where
  texts a := by rw [State.reset_mem, Memory.getInstruction_empty]; rfl
  noOperandError _ he := absurd he List.not_mem_nil

theorem step_keeps_operandsValid {s t : State} (hv : s.OperandsValid) (h : step s = .next t) :
    t.OperandsValid where
  texts a := Memory.getInstruction_congr (step_keeps_instr h) a ▸ hv.texts a
  noOperandError := by
    rcases step_cases h with ⟨_, rfl⟩ | ⟨_, hexec⟩
    · exact hv.noOperandError
    · obtain ⟨hmissing, hinvalid⟩ := (textValid_iff _).mp (hv.texts s.pc)
      intro e he
      rcases exec_appends_no_operandError hexec hmissing hinvalid e he with hold | hnew
      · exact hv.noOperandError e hold
      · exact hnew

/-- R142: valid texts loaded over valid texts leave valid texts. -/
theorem textValid_loadInstructions {ps : List (Int × Text)} (hps : ∀ q ∈ ps, textValid q.2 = true)
    {m : Memory} (hm : ∀ a, textValid (m.getInstruction a) = true) (a : Int) :
    textValid ((loadInstructions ps m).getInstruction a) = true := by
  induction ps generalizing m with
  | nil => exact hm a
  | cons p ps ih =>
    obtain ⟨hp, hps⟩ := List.forall_mem_cons.mp hps
    refine ih hps (m := m.setInstruction p.1 p.2) fun b => ?_
    rw [Memory.getInstruction_setInstruction]
    split
    · exact hp
    · exact hm b

theorem Program.textValid_of_valid {p : Program} (h : p.valid = true) :
    ∀ q ∈ p.instructions, textValid q.2 = true := by
  intro q hq
  simp only [Program.valid, Bool.and_eq_true, List.all_eq_true] at h
  obtain ⟨⟨htexts, -⟩, -⟩ := h
  exact (htexts q hq).2

theorem loadProgram_keeps_operandsValid {p : Program} (hp : p.valid = true) {s : State}
    (hv : s.OperandsValid) : (loadProgram p s).OperandsValid where
  texts a := by
    rw [loadProgram_mem, Memory.getInstruction_congr (loadData_instr _ _)]
    exact textValid_loadInstructions (Program.textValid_of_valid hp) hv.texts a
  noOperandError := hv.noOperandError

/-- Settles O52: the texts stay, and a valid text logs no operand error. -/
theorem stepKeepsOperandsValid : Obligations.StepKeepsOperandsValid := fun _ _ =>
  step_keeps_operandsValid

/-- Settles O51: the blank texts of reset are valid, and valid texts replace them. -/
theorem operandsValidEstablished : Obligations.OperandsValidEstablished :=
  ⟨State.operandsValid_reset, fun _ _ hp => loadProgram_keeps_operandsValid hp⟩

/-- Settles O48: from the loaded reset state the loop keeps what every step keeps. -/
theorem validProgramLogsNoOperandError : Obligations.ValidProgramLogsNoOperandError := by
  intro p hp
  have hload : (loadProgram p construct).OperandsValid :=
    loadProgram_keeps_operandsValid hp State.operandsValid_reset
  have hend : (runProgram (loadProgram p construct)).1.OperandsValid :=
    runLoop_keeps step_keeps_operandsValid _ hload
  exact hend.noOperandError

end Sys2Proof.Machine
end

section
/-! PROOFS. The instructions: what `exec` answers, its frame, the whole cycle of an instruction's text
(R68, R110 to R130), and a store read by the next cycle (R209). The line logged on a fetched state is
`State.entry` of the state before the fetch (`fetch_log`), which gives each cycle's state in closed
form. -/

namespace Sys2Proof.Machine

/-! Completion: every meaning in closed form, on every state and operand -/

/-- Settles O10: the meaning of LOAD, unfolded. -/
theorem loadCompletes : Obligations.LoadCompletes := fun _ _ => rfl

/-- Settles O11: the meaning of STORE, and what its write does in range and out of range. -/
theorem storeCompletes : Obligations.StoreCompletes := fun a s =>
  ⟨_, rfl, rfl, fun h => s.mem.getValue_setData_same ((inRange_iff a).mpr h) s.ac,
    fun h => s.mem.setData_of_not_inRange ((inRange_eq_false_iff a).mpr h) s.ac⟩

/-- Settles O12: the meaning of ADD, unfolded. -/
theorem addCompletes : Obligations.AddCompletes := fun _ _ => rfl

/-- Settles O13: the meaning of SUB, unfolded. -/
theorem subCompletes : Obligations.SubCompletes := fun _ _ => rfl

/-- Settles O14: the meaning of HLT, unfolded. -/
theorem hltCompletes : Obligations.HltCompletes := fun _ => rfl

/-- Settles O15: the meaning of the blank form, unfolded. -/
theorem emptyCompletes : Obligations.EmptyCompletes := fun _ => rfl

/-- Settles O16: each error form raises its error. -/
theorem errorFormsComplete : Obligations.ErrorFormsComplete := fun s =>
  ⟨exec_of_errorOf rfl s, fun _ => exec_of_errorOf rfl s, fun _ => exec_of_errorOf rfl s⟩

/-- Settles O8: with the gate open, the step executes on the fetched state, which is the record of R92. -/
theorem stepRunsTheDecodedInstruction : Obligations.StepRunsTheDecodedInstruction := by
  intro s hrun hpc
  rw [step_of_running ((s.isHalted_eq_false_iff).mpr ⟨hrun, hpc⟩), fetch_eq, State.nextInstr_eq]

/-! Frames -/

/-- R111: only STORE writes memory. -/
theorem exec_mem_of_ne_store {i : Instr} {s t : State} (h : exec i s = .next t)
    (hi : ∀ a, i ≠ .store a) : t.mem = s.mem := by
  cases i with
  | store a => exact absurd rfl (hi a)
  | _ => cases h; rfl

/-- R110, R120, R121: only LOAD, ADD and SUB write AC. -/
theorem exec_ac_of_ne {i : Instr} {s t : State} (h : exec i s = .next t)
    (hi : ∀ a, i ≠ .load a ∧ i ≠ .add a ∧ i ≠ .sub a) : t.ac = s.ac := by
  cases i with
  | load a => exact absurd rfl (hi a).1
  | add a => exact absurd rfl (hi a).2.1
  | sub a => exact absurd rfl (hi a).2.2
  | _ => cases h; rfl

theorem exec_halted_of_ne_hlt {i : Instr} {s t : State} (h : exec i s = .next t) (hi : i ≠ .hlt) :
    t.halted = s.halted := by
  rw [Bool.eq_iff_iff, exec_halted_iff h, or_iff_left hi]

/-- Settles O32: the memory is the same data, and the rest is what no meaning or one meaning writes. -/
theorem frameOfFormsThatStoreNothing : Obligations.FrameOfFormsThatStoreNothing := by
  intro i s t hi h
  have hmem : t.mem = s.mem := exec_mem_of_ne_store h hi
  obtain ⟨hpc, hir, hmar, hmdr⟩ := exec_keeps_fetch_registers h
  refine ⟨fun _ => by rw [hmem], fun _ => by rw [hmem]; exact ⟨rfl, rfl⟩, hpc, hir, hmar, hmdr,
    exec_halted_of_ne_hlt h, exec_ac_of_ne h, ?_⟩
  rcases exec_trace h with ht | ⟨m, ht⟩
  · exact ⟨[], ht.trans (List.append_nil _).symm, Nat.zero_le 1⟩
  · exact ⟨_, ht, Nat.le_refl 1⟩

/-- Settles O33: the state STORE answers is a data write and one line. -/
theorem frameOfStore : Obligations.FrameOfStore := by
  intro a s t h
  cases h
  exact ⟨fun _ hb => s.mem.getValue_setData_of_ne hb s.ac,
    fun b => ⟨s.mem.getInstruction_setData a b s.ac, s.mem.present_setData a b s.ac⟩,
    rfl, rfl, rfl, rfl, rfl, rfl, _, rfl⟩

/-! The five instructions on a fetched state -/

theorem exec_hlt_fetch (s : State) :
    exec .hlt (fetch s) =
      .next { fetch s with halted := true, trace := s.trace ++ [s.entry .programHalted] } := by
  rw [← fetch_log]; rfl

theorem exec_load_fetch (a : Int) (s : State) :
    exec (.load a) (fetch s) =
      .next { fetch s with
        ac := s.mem.getValue a
        trace := s.trace ++ [s.entry (.accumulator (s.mem.getValue a))] } := by
  rw [← fetch_log]; rfl

theorem exec_store_fetch (a : Int) (s : State) :
    exec (.store a) (fetch s) =
      .next { fetch s with
        mem := s.mem.setData a s.ac
        trace := s.trace ++ [s.entry (.memoryWrite a s.ac)] } := by
  rw [← fetch_log]; rfl

theorem exec_add_fetch (a : Int) (s : State) :
    exec (.add a) (fetch s) =
      .next { fetch s with
        ac := s.ac + s.mem.getValue a
        trace := s.trace ++ [s.entry (.accumulator (s.ac + s.mem.getValue a))] } := by
  rw [← fetch_log]; rfl

theorem exec_sub_fetch (a : Int) (s : State) :
    exec (.sub a) (fetch s) =
      .next { fetch s with
        ac := s.ac - s.mem.getValue a
        trace := s.trace ++ [s.entry (.accumulator (s.ac - s.mem.getValue a))] } := by
  rw [← fetch_log]; rfl

/-! The cycle of an instruction's text -/

theorem step_of_nextInstr {i : Instr} {s t : State} (hs : s.isHalted = false)
    (hi : s.nextInstr = i) (h : exec i (fetch s) = .next t) : step s = .next t := by
  rw [step_of_running hs, hi, h]

theorem runCycle_of_nextInstr {i : Instr} {s t : State} (hs : s.isHalted = false)
    (hi : s.nextInstr = i) (h : exec i (fetch s) = .next t) : runCycle s = (t, !t.halted) :=
  runCycle_of_running hs (step_of_nextInstr hs hi h)

/-- R97: the cycle of anything but HLT answers true. -/
theorem runCycle_of_nextInstr_ne_hlt {i : Instr} {s t : State} (hs : s.isHalted = false)
    (hi : s.nextInstr = i) (hne : i ≠ .hlt) (h : exec i (fetch s) = .next t) :
    runCycle s = (t, true) := by
  have ht : t.halted = false :=
    step_halted_eq_false hs (step_of_nextInstr hs hi h) (hi ▸ hne)
  rw [runCycle_of_nextInstr hs hi h, ht, Bool.not_false]

/-- R68: a token that spells a mnemonic other than HLT, and a valid address, whatever follows. -/
theorem decode_of_mnemonic {t op num mn : Text} {more : List Text} {a : Int}
    (htok : tokens t = op :: num :: more) (hnum : validateAddress num Config.addrLimit = .ok a)
    (hne : mn ≠ mnHlt) (hop : upper op = mn) : decode t = decodeOpcode mn a := by
  subst hop
  exact decode_operand htok hne hnum

/-- Settles O34: the text decodes by its tokens, and the cycle is the meaning on the fetched state. -/
theorem instructionTextsRun : Obligations.InstructionTextsRun := by
  intro s op rest hrun hpc htok
  have hs : s.isHalted = false := (s.isHalted_eq_false_iff).mpr ⟨hrun, hpc⟩
  refine ⟨fun hop => runCycle_of_nextInstr hs (decode_hlt htok hop) (exec_hlt_fetch s), ?_⟩
  rintro num more a rfl hnum
  have hdecode : ∀ mn, mn ≠ mnHlt → upper op = mn → s.nextInstr = decodeOpcode mn a :=
    fun _ => decode_of_mnemonic htok hnum
  exact ⟨
    fun hop => runCycle_of_nextInstr_ne_hlt hs (hdecode mnLoad (by decide) hop) nofun
      (exec_load_fetch a s),
    fun hop => runCycle_of_nextInstr_ne_hlt hs (hdecode mnStore (by decide) hop) nofun
      (exec_store_fetch a s),
    fun hop => runCycle_of_nextInstr_ne_hlt hs (hdecode mnAdd (by decide) hop) nofun
      (exec_add_fetch a s),
    fun hop => runCycle_of_nextInstr_ne_hlt hs (hdecode mnSub (by decide) hop) nofun
      (exec_sub_fetch a s)⟩

/-! A store read by the next cycle (R209) -/

/-- R65, R77: the operand of a decoded instruction names a slot. -/
theorem inRange_of_decode_address {t : Text} {a : Int} (h : (decode t).address = some a) :
    inRange a = true :=
  (inRange_iff a).mpr ((decode t).wf_iff.mp (decode_wf t) a h)

/-- R111, R209: the cycle of a STORE in any slot but the last leaves a Running machine, about to
execute the next slot, whose addressed data slot and AC both hold the stored value. -/
theorem step_of_store {s : State} {a : Int} (hrun : s.halted = false)
    (hpc : s.pc + 1 < Config.memSize) (h : s.nextInstr = .store a) :
    ∃ u, step s = .next u ∧ u.isHalted = false ∧ u.ac = s.ac ∧ u.mem.getValue a = s.ac ∧
      u.nextInstr = decode (s.mem.getInstruction (s.pc + 1)) := by
  have hs : s.isHalted = false := (s.isHalted_eq_false_iff).mpr ⟨hrun, by omega⟩
  have ha : inRange a = true := inRange_of_decode_address (congrArg Instr.address h)
  refine ⟨_, step_of_nextInstr hs h (exec_store_fetch a s),
    (State.isHalted_eq_false_iff _).mpr ⟨hrun, hpc⟩, rfl, s.mem.getValue_setData_same ha s.ac, ?_⟩
  show decode ((s.mem.setData a s.ac).getInstruction ((s.pc + 1 : Nat) : Int)) = _
  rw [Memory.getInstruction_setData, Nat.cast_succ]

/-- Settles O35: the second cycle reads the stored value from its slot and the same value from AC. -/
theorem storeIsReadByTheNextCycle : Obligations.StoreIsReadByTheNextCycle := by
  intro s a hrun hpc hstore
  obtain ⟨u, hu, hopen, hac, hval, hnext⟩ := step_of_store hrun hpc hstore
  have hrun2 : ∀ {i t}, decode (s.mem.getInstruction (s.pc + 1)) = i →
      exec i (fetch u) = .next t → Host.Core.run core 2 s = .next t := fun hi hexec => by
    rw [core_run_succ hu, core_run_succ (step_of_nextInstr hopen (hnext.trans hi) hexec),
      core_run_zero]
  refine ⟨fun hi => ⟨_, hrun2 hi (exec_load_fetch a u), hval⟩,
    fun hi => ⟨_, hrun2 hi (exec_add_fetch a u), ?_⟩,
    fun hi => ⟨_, hrun2 hi (exec_sub_fetch a u), ?_⟩⟩
  · show u.ac + u.mem.getValue a = s.ac + s.ac
    rw [hac, hval]
  · show u.ac - u.mem.getValue a = 0
    rw [hac, hval, sub_self]

/-! What the host reads back (R95, R150, R151) -/

/-- Settles O9: the texts are those of the renderer, and the two whole lines are closed. -/
theorem traceLineFormat : Obligations.TraceLineFormat :=
  ⟨fun _ => rfl, rfl, rfl, fun _ => rfl, fun _ => rfl, fun _ _ => rfl, rfl, by decide, by decide⟩

/-- Settles O17: the reads of the host answer fields and leave the state as it is. -/
theorem readingChangesNothing : Obligations.ReadingChangesNothing := fun _ =>
  ⟨fun _ => rfl, rfl, rfl, rfl, rfl, rfl, rfl, rfl, rfl, fun _ => ⟨rfl, rfl⟩⟩

end Sys2Proof.Machine
end

section
/-! PROOFS. Loading a program and the duplicate check (R142, R143, R146). Both are read from the back
of the list, where the last pair stands: loading one more pair is one write after the rest, and one
more address is listed exactly when the rest holds it. -/

namespace Sys2Proof.Machine

/-! The last pair for an address (R143) -/

section LastPair
variable {α : Type}

theorem lastPair_append_singleton (ps : List (Int × α)) (p : Int × α) (a : Int) :
    lastPair (ps ++ [p]) a = if p.1 = a then some p.2 else lastPair ps a := by
  simp only [lastPair, List.reverse_append, List.reverse_singleton, List.singleton_append,
    List.find?_cons]
  by_cases hp : p.1 = a <;> simp [hp]

theorem lastPair_of_no_later {a : Int} {v : α} {pre post : List (Int × α)}
    (h : ∀ q ∈ post, q.1 ≠ a) : lastPair (pre ++ (a, v) :: post) a = some v := by
  have hpost : post.reverse.find? (fun p => decide (p.1 = a)) = none := by simpa using h
  simp [lastPair, List.find?_append, hpost]

end LastPair

/-! What a loaded memory reads (R142) -/

theorem loadInstructions_append_singleton (ps : List (Int × Text)) (p : Int × Text) (m : Memory) :
    loadInstructions (ps ++ [p]) m = (loadInstructions ps m).setInstruction p.1 p.2 := by
  simp [loadInstructions]

theorem loadData_append_singleton (ps : List (Int × Int)) (p : Int × Int) (m : Memory) :
    loadData (ps ++ [p]) m = (loadData ps m).setData p.1 p.2 := by
  simp [loadData]

theorem getInstruction_loadInstructions {a : Int} (ha : inRange a = true) (ps : List (Int × Text))
    (m : Memory) :
    (loadInstructions ps m).getInstruction a = (lastPair ps a).getD (m.getInstruction a) := by
  induction ps using List.reverseRecOn with
  | nil => rfl
  | append_singleton ps p ih =>
    rw [loadInstructions_append_singleton, lastPair_append_singleton]
    by_cases hp : p.1 = a
    · subst hp
      rw [Memory.getInstruction_setInstruction_same _ ha, if_pos rfl, Option.getD_some]
    · rw [Memory.getInstruction_setInstruction_of_ne _ (Ne.symm hp), if_neg hp, ih]

theorem present_loadInstructions {a : Int} (ha : inRange a = true) (ps : List (Int × Text))
    (m : Memory) :
    (loadInstructions ps m).present a = ((lastPair ps a).isSome || m.present a) := by
  induction ps using List.reverseRecOn with
  | nil => rfl
  | append_singleton ps p ih =>
    rw [loadInstructions_append_singleton, lastPair_append_singleton]
    by_cases hp : p.1 = a
    · subst hp
      rw [Memory.present_setInstruction_same _ ha, if_pos rfl, Option.isSome_some, Bool.true_or]
    · rw [Memory.present_setInstruction_of_ne _ (Ne.symm hp), if_neg hp, ih]

theorem getValue_loadData {a : Int} (ha : inRange a = true) (ps : List (Int × Int)) (m : Memory) :
    (loadData ps m).getValue a = (lastPair ps a).getD (m.getValue a) := by
  induction ps using List.reverseRecOn with
  | nil => rfl
  | append_singleton ps p ih =>
    rw [loadData_append_singleton, lastPair_append_singleton]
    by_cases hp : p.1 = a
    · subst hp
      rw [Memory.getValue_setData_same _ ha, if_pos rfl, Option.getD_some]
    · rw [Memory.getValue_setData_of_ne _ (Ne.symm hp), if_neg hp, ih]

/-- R50: loading instructions leaves the data plane. -/
theorem getValue_loadInstructions (ps : List (Int × Text)) (m : Memory) (a : Int) :
    (loadInstructions ps m).getValue a = m.getValue a := by
  induction ps using List.reverseRecOn with
  | nil => rfl
  | append_singleton ps p ih =>
    rw [loadInstructions_append_singleton, Memory.getValue_setInstruction, ih]

/-! The order of the two groups (R155) -/

theorem setData_setInstruction_comm (m : Memory) (a b : Int) (v : Int) (t : Text) :
    (m.setInstruction b t).setData a v = (m.setData a v).setInstruction b t := by
  unfold Memory.setData Memory.setInstruction
  by_cases ha : inRange a = true <;> by_cases hb : inRange b = true <;> simp [ha, hb]

theorem loadData_setInstruction (ds : List (Int × Int)) (m : Memory) (b : Int) (t : Text) :
    loadData ds (m.setInstruction b t) = (loadData ds m).setInstruction b t :=
  List.foldl_hom (fun m => Memory.setInstruction m b t)
    fun m p => setData_setInstruction_comm m p.1 b p.2 t

theorem loadData_loadInstructions_comm (ds : List (Int × Int)) (ps : List (Int × Text))
    (m : Memory) :
    loadData ds (loadInstructions ps m) = loadInstructions ps (loadData ds m) :=
  (List.foldl_hom (loadData ds) fun m p => (loadData_setInstruction ds m p.1 p.2).symm).symm

/-! A slot of the loaded machine -/

theorem getInstruction_loadProgram {a : Int} (ha : inRange a = true) (p : Program) (s : State) :
    (loadProgram p s).mem.getInstruction a =
      (lastPair p.instructions a).getD (s.mem.getInstruction a) := by
  rw [loadProgram_mem, Memory.getInstruction_congr (loadData_instr _ _),
    getInstruction_loadInstructions ha]

theorem present_loadProgram {a : Int} (ha : inRange a = true) (p : Program) (s : State) :
    (loadProgram p s).mem.present a = ((lastPair p.instructions a).isSome || s.mem.present a) := by
  rw [loadProgram_mem, Memory.present_congr (loadData_instr _ _), present_loadInstructions ha]

theorem getValue_loadProgram {a : Int} (ha : inRange a = true) (p : Program) (s : State) :
    (loadProgram p s).mem.getValue a = (lastPair p.dataValues a).getD (s.mem.getValue a) := by
  rw [loadProgram_mem, getValue_loadData ha, getValue_loadInstructions]

/-- Settles O40: a slot reads its last pair, and a pair with no later one is the last. -/
theorem loadProgramEffect : Obligations.LoadProgramEffect := by
  refine ⟨fun p s => ⟨loadProgram_ac p s, loadProgram_pc p s, loadProgram_ir p s,
    loadProgram_mar p s, loadProgram_mdr p s, loadProgram_halted p s, loadProgram_trace p s,
    fun a h0 hN => ?_, fun a hout => ?_, loadData_loadInstructions_comm _ _ _⟩,
    fun s a h0 hN => ?_⟩
  · have ha : inRange a = true := (inRange_iff a).mpr ⟨h0, hN⟩
    exact ⟨getInstruction_loadProgram ha p s, present_loadProgram ha p s, getValue_loadProgram ha p s⟩
  · have ha : inRange a = false := (inRange_eq_false_iff a).mpr (by omega)
    exact ⟨Memory.getInstruction_of_not_inRange _ ha, Memory.getValue_of_not_inRange _ ha⟩
  · have ha : inRange a = true := (inRange_iff a).mpr ⟨h0, hN⟩
    refine ⟨fun t pre post ds hpost => ?_, fun v pre post is hpost => ?_⟩
    · rw [getInstruction_loadProgram ha, lastPair_of_no_later hpost, Option.getD_some]
    · rw [getValue_loadProgram ha, lastPair_of_no_later hpost, Option.getD_some]

/-! The duplicate check (R146) -/

/-- One more address is listed exactly when it stands before. -/
theorem repeatedAddresses_append_singleton (as : List Int) (b : Int) :
    repeatedAddresses (as ++ [b]) = repeatedAddresses as ++ if b ∈ as then [b] else [] := by
  have hfront : as.zipIdx.filter (fun p => ((as ++ [b]).take p.2).contains p.1)
      = as.zipIdx.filter (fun p => (as.take p.2).contains p.1) := by
    refine List.filter_congr fun p hp => ?_
    obtain ⟨-, hlt, -⟩ := List.mem_zipIdx (x := p.1) (i := p.2) hp
    rw [List.take_append_of_le_length (by omega)]
  rw [repeatedAddresses, List.zipIdx_append, List.filter_append, hfront, List.map_append,
    repeatedAddresses]
  by_cases hb : b ∈ as <;> simp [hb]

/-- An address is listed once for each occurrence after its first. -/
theorem count_repeatedAddresses (as : List Int) (a : Int) :
    (repeatedAddresses as).count a = as.count a - 1 := by
  induction as using List.reverseRecOn with
  | nil => rfl
  | append_singleton as b ih =>
    rw [repeatedAddresses_append_singleton, List.count_append, List.count_append, ih]
    by_cases hab : b = a
    · subst hab
      by_cases hb : b ∈ as
      · have hpos : 0 < as.count b := List.count_pos_iff.mpr hb
        simp [hb, Nat.sub_add_cancel hpos]
      · simp [hb, List.count_eq_zero.mpr hb]
    · by_cases hb : b ∈ as <;> simp [hb, hab]

theorem repeatedAddresses_eq_nil_iff (as : List Int) : repeatedAddresses as = [] ↔ as.Nodup := by
  rw [List.nodup_iff_count_le_one, List.eq_nil_iff_forall_not_mem]
  refine forall_congr' fun a => ?_
  rw [← List.count_eq_zero, count_repeatedAddresses]
  omega

theorem checkDuplicateInstructions_eq_ok_iff (ps : List (Int × Text)) :
    checkDuplicateInstructions ps = .ok () ↔ repeatedAddresses (assignedAddresses ps) = [] := by
  unfold checkDuplicateInstructions
  rw [duplicatesFrom_nil]
  rcases repeatedAddresses (assignedAddresses ps) with _ | ⟨d, ds⟩ <;> simp

theorem checkDuplicateInstructions_eq_error {ps : List (Int × Text)} {ds : List Int}
    (h : checkDuplicateInstructions ps = .error (.duplicateInstructionAddress ds)) :
    ds ≠ [] ∧ ds = repeatedAddresses (assignedAddresses ps) := by
  unfold checkDuplicateInstructions at h
  rw [duplicatesFrom_nil] at h
  rcases hd : repeatedAddresses (assignedAddresses ps) with _ | ⟨d, ds'⟩
  · rw [hd] at h
    cases h
  · rw [hd] at h
    cases h
    exact ⟨List.cons_ne_nil _ _, rfl⟩

/-- Settles O42: the list of the check is `repeatedAddresses`, whose counts decide the verdict. -/
theorem duplicateCheckVerdict : Obligations.DuplicateCheckVerdict := by
  refine fun ps => ⟨?_, fun ds h => ?_⟩
  · rw [checkDuplicateInstructions_eq_ok_iff, repeatedAddresses_eq_nil_iff]
  · obtain ⟨hne, hds⟩ := checkDuplicateInstructions_eq_error h
    exact ⟨hne, hds, fun a => hds ▸ count_repeatedAddresses _ a⟩

end Sys2Proof.Machine
end
